-- ==== Sys2Proof/Config.lean ====
section
/-! DEFINITION. The constants of the hardware (spec 00_scope.md R8), its one build parameter (R10) and the one free value. -/

namespace Sys2Proof

/-- The value `PKT[0]` must have (R17, R20). -/
abbrev syncByte : Byte := 0x47#8

/-- Bytes of a TS packet (R8, R61). -/
abbrev packetSize : Nat := 188

/-- Bytes of the fixed PES header (R8). -/
abbrev pesHeaderSize : Nat := 6

/-- What is fixed when the hardware is built (R10, R248): the capacity `BUF_CAP` of the PES buffer in bytes.
The spec leaves it open, so it stands in the machine's state as data that no operation writes, and every
statement about a state is a statement about every capacity (log entry 3). -/
structure Config where
  bufCap : Nat
  deriving DecidableEq, Repr

/-- The range R10 gives `BUF_CAP`. -/
abbrev Config.Legal (c : Config) : Prop := 6 ≤ c.bufCap ∧ c.bufCap ≤ 2 ^ 32 - 1

/-- The free value: which of the values of R26 that no rule excludes RESULT takes after a stand-alone decoder whose own result is
not in R26's list, at its n-th such use. Nothing is known of it (log entry 19). -/
opaque Config.freeResult : Nat → Fin 7

end Sys2Proof
end

