-- ==== Sys2Proof/Syntax.lean ====
section
/-! DEFINITION. The instructions: one constructor of `Instr` per row of spec/opcode_table.json, and the host's
commands and requests they are decoded from (spec 00_scope.md R7, 30_encoding.md R113, 44_packet_step.md R253). -/

namespace Sys2Proof

/-- Exactly `n` bytes, first address first (R12): a packet is a `Block 188` (R61). -/
structure Block (n : Nat) where
  data : List Byte
  size : data.length = n
  deriving DecidableEq, Repr

/-- The operands of a packet class (30_encoding.md R110): the fields of the TS header word that the class does not
fix. `pid` and `continuityCounter` are compared with state, the other three are don't-care bits. -/
structure HeaderFields where
  errorIndicator    : BitVec 1
  priority          : BitVec 1
  pid               : BitVec 13
  scramblingControl : BitVec 2
  continuityCounter : BitVec 4
  deriving DecidableEq, Repr

/-- The operations. A packet class carries its header fields and the packet's bytes at addresses 4 to 187; the
operations that the host names carry their operands as the spec lists them. -/
inductive Instr where
  /-- PKT.CONT.AFC0 (R210). -/
  | pktContAfc0  (h : HeaderFields) (body : Block 184)
  /-- PKT.CONT.AFC1 (R211). -/
  | pktContAfc1  (h : HeaderFields) (body : Block 184)
  /-- PKT.CONT.AFC2 (R212). -/
  | pktContAfc2  (h : HeaderFields) (body : Block 184)
  /-- PKT.CONT.AFC3 (R213). -/
  | pktContAfc3  (h : HeaderFields) (body : Block 184)
  /-- PKT.START.AFC0 (R214). -/
  | pktStartAfc0 (h : HeaderFields) (body : Block 184)
  /-- PKT.START.AFC1 (R215). -/
  | pktStartAfc1 (h : HeaderFields) (body : Block 184)
  /-- PKT.START.AFC2 (R216). -/
  | pktStartAfc2 (h : HeaderFields) (body : Block 184)
  /-- PKT.START.AFC3 (R217). -/
  | pktStartAfc3 (h : HeaderFields) (body : Block 184)
  /-- PKT.SYNCERR (R242): the first byte is not 0x47. -/
  | pktSyncErr   (sync : Byte) (rest : Block 187)
  /-- TSH.PARSE on its own (R130, R245). -/
  | tshParse     (p : Block 188)
  /-- AF.PARSE on its own, with the value of `afc` it is given (R150, R245). -/
  | afParse      (p : Block 188) (afc : BitVec 2)
  /-- PESH.PARSE on its own, on the bytes available (R170, R245). -/
  | peshParse    (bytes : List Byte)
  /-- ES.STRIP, the host's operation on BUF (R260). -/
  | esStrip
  /-- PES.ABSORB on its own, with TSH and AF as its decoded arguments (R185, R245). -/
  | pesAbsorb    (p : Block 188)
  /-- PKT, the composite per-packet step (R240). -/
  | pkt          (p : Block 188)
  /-- RESET(pid) (R246). -/
  | reset        (pid : BitVec 13)
  deriving DecidableEq, Repr

/-- A command as the host issues it, with raw bytes (44_packet_step.md R245, R253; 45_host_extraction.md R265).
The spec gives commands no bit encoding (R246, decision D21), so which one it is stands in the constructor. -/
inductive Command where
  /-- A presented block, whose header word selects one of the nine packet classes (30_encoding.md R110). -/
  | packet    (block : List Byte)
  /-- PKT named as an operation: the composite of R240. -/
  | pkt       (block : List Byte)
  | tshParse  (block : List Byte)
  | afParse   (block : List Byte) (afc : BitVec 2)
  | peshParse (bytes : List Byte)
  | pesAbsorb (block : List Byte)
  | esStrip
  | reset     (pid : BitVec 13)
  deriving DecidableEq, Repr

/-- What the host asks for next: the next 188-byte block of its stream (R250, R265 row H2), or one command. -/
inductive Request where
  | feed
  | issue (c : Command)
  deriving DecidableEq, Repr

end Sys2Proof
end

