-- ==== Sys2Proof/WellFormed.lean ====
section
/-! DEFINITION. Which terms of `Instr` stand for an operation the decoder can give. Block sizes are in the types;
the one check left is that a sync error has a byte other than 0x47 (spec 30_encoding.md R111, R114). -/

namespace Sys2Proof

/-- PKT.SYNCERR "applies when no other row matches, that is when W[31:24] != 0x47" (R111). -/
def Instr.wellFormed : Instr → Bool
  | .pktContAfc0 _ _ => true
  | .pktContAfc1 _ _ => true
  | .pktContAfc2 _ _ => true
  | .pktContAfc3 _ _ => true
  | .pktStartAfc0 _ _ => true
  | .pktStartAfc1 _ _ => true
  | .pktStartAfc2 _ _ => true
  | .pktStartAfc3 _ _ => true
  | .pktSyncErr sync _ => sync != syncByte
  | .tshParse _ => true
  | .afParse _ _ => true
  | .peshParse _ => true
  | .esStrip => true
  | .pesAbsorb _ => true
  | .pkt _ => true
  | .reset _ => true

end Sys2Proof
end

