-- ==== Sys2Proof/Decode.lean ====
section
/-! DEFINITION. The bit fields of the formats TSH and AFH (spec 30_encoding.md R91 to R95), the decoder from the host's
commands to `Instr` (R110 to R112), the encoder (40_ts_header.md R135), and the words of opcode_table.json. -/

namespace Sys2Proof

/-! ### Bit fields of the TS header (R91, R92) -/

def errorIndicatorOf (b1 : Byte) : BitVec 1 := b1.extractLsb' 7 1
def payloadUnitStartOf (b1 : Byte) : BitVec 1 := b1.extractLsb' 6 1
def priorityOf (b1 : Byte) : BitVec 1 := b1.extractLsb' 5 1
/-- `pid = {PKT[1][4:0], PKT[2]}`, big-endian (R63, R91): `((PKT[1] & 0x1F) << 8) | PKT[2]` (R92). -/
def pidOf (b1 b2 : Byte) : BitVec 13 := (b1 &&& 0x1F#8).setWidth 13 <<< 8 ||| b2.setWidth 13
def scramblingControlOf (b3 : Byte) : BitVec 2 := b3.extractLsb' 6 2
def adaptationFieldControlOf (b3 : Byte) : BitVec 2 := b3.extractLsb' 4 2
def continuityCounterOf (b3 : Byte) : BitVec 4 := b3.extractLsb' 0 4

/-- The inverse of the fields of `PKT[1]` (R135). -/
def headerByte1 (errorIndicator payloadUnitStart priority : BitVec 1) (pid : BitVec 13) : Byte :=
  errorIndicator.setWidth 8 <<< 7 ||| payloadUnitStart.setWidth 8 <<< 6 ||| priority.setWidth 8 <<< 5
    ||| (pid.extractLsb' 8 5).setWidth 8

/-- The inverse of the fields of `PKT[2]` (R135). -/
def headerByte2 (pid : BitVec 13) : Byte := pid.extractLsb' 0 8

/-- The inverse of the fields of `PKT[3]` (R135). -/
def headerByte3 (scrambling afc : BitVec 2) (cc : BitVec 4) : Byte :=
  scrambling.setWidth 8 <<< 6 ||| afc.setWidth 8 <<< 4 ||| cc.setWidth 8

/-! ### Blocks -/

/-- `PKT[i]` (R14): the byte at an address inside the block. -/
def Block.byte {n : Nat} (p : Block n) (i : Fin n) : Byte :=
  p.data[i.val]'(by rw [p.size]; exact i.isLt)

/-- The first `n` bytes of what the host presents, or nothing if there are fewer. "Packet end" is address 187
whatever longer buffer the host holds the packet in (20_memory.md R61, decision D26). -/
def sizedBlock (n : Nat) (bytes : List Byte) : Option (Block n) :=
  if h : n ≤ bytes.length then some ⟨bytes.take n, by simp; omega⟩ else none

/-! ### The decoder -/

/-- Why a command stands for no operation. -/
inductive DecodeReject where
  /-- A block shorter than 188 bytes, which "must not be parsed" (44_packet_step.md R251). -/
  | truncatedBlock
  deriving DecidableEq, Repr

/-- The eight classes of 30_encoding.md R111, by payload-unit-start and adaptation-field-control. -/
def classOf (pusi : BitVec 1) (afc : BitVec 2) (h : HeaderFields) (body : Block 184) : Instr :=
  if pusi = 0#1 then
    if afc = 0#2 then .pktContAfc0 h body
    else if afc = 1#2 then .pktContAfc1 h body
    else if afc = 2#2 then .pktContAfc2 h body
    else .pktContAfc3 h body
  else
    if afc = 0#2 then .pktStartAfc0 h body
    else if afc = 1#2 then .pktStartAfc1 h body
    else if afc = 2#2 then .pktStartAfc2 h body
    else .pktStartAfc3 h body

/-- The header fields a class keeps as operands. -/
def headerFieldsOf (b1 b2 b3 : Byte) : HeaderFields where
  errorIndicator := errorIndicatorOf b1
  priority := priorityOf b1
  pid := pidOf b1 b2
  scramblingControl := scramblingControlOf b3
  continuityCounter := continuityCounterOf b3

/-- A packet's header word selects its class; the sync byte is looked at first (R111, R114). -/
def decodePacket : List Byte → Except DecodeReject Instr
  | b0 :: b1 :: b2 :: b3 :: tail =>
    match sizedBlock 184 tail with
    | none => .error .truncatedBlock
    | some body =>
      if b0 = syncByte then
        .ok (classOf (payloadUnitStartOf b1) (adaptationFieldControlOf b3) (headerFieldsOf b1 b2 b3) body)
      else
        .ok (.pktSyncErr b0 ⟨b1 :: b2 :: b3 :: body.data, by simp [body.size]⟩)
  | _ => .error .truncatedBlock

/-- An operation on a whole packet needs 188 bytes (R61, R251). -/
def decodeBlock (bytes : List Byte) (op : Block 188 → Instr) : Except DecodeReject Instr :=
  match sizedBlock 188 bytes with
  | none => .error .truncatedBlock
  | some p => .ok (op p)

/-- The operation a command stands for. -/
def decode : Command → Except DecodeReject Instr
  | .packet block => decodePacket block
  | .pkt block => decodeBlock block .pkt
  | .tshParse block => decodeBlock block .tshParse
  | .afParse block afc => decodeBlock block (.afParse · afc)
  | .peshParse bytes => .ok (.peshParse bytes)
  | .pesAbsorb block => decodeBlock block .pesAbsorb
  | .esStrip => .ok .esStrip
  | .reset pid => .ok (.reset pid)

/-! ### The encoder (R135) -/

/-- The 188 bytes of a packet of a class. -/
def encodePacket (pusi : BitVec 1) (afc : BitVec 2) (h : HeaderFields) (body : Block 184) : List Byte :=
  syncByte :: headerByte1 h.errorIndicator pusi h.priority h.pid :: headerByte2 h.pid ::
    headerByte3 h.scramblingControl afc h.continuityCounter :: body.data

/-- The command that stands for an operation. -/
def encode : Instr → Command
  | .pktContAfc0 h body => .packet (encodePacket 0 0 h body)
  | .pktContAfc1 h body => .packet (encodePacket 0 1 h body)
  | .pktContAfc2 h body => .packet (encodePacket 0 2 h body)
  | .pktContAfc3 h body => .packet (encodePacket 0 3 h body)
  | .pktStartAfc0 h body => .packet (encodePacket 1 0 h body)
  | .pktStartAfc1 h body => .packet (encodePacket 1 1 h body)
  | .pktStartAfc2 h body => .packet (encodePacket 1 2 h body)
  | .pktStartAfc3 h body => .packet (encodePacket 1 3 h body)
  | .pktSyncErr sync rest => .packet (sync :: rest.data)
  | .tshParse p => .tshParse p.data
  | .afParse p afc => .afParse p.data afc
  | .peshParse bytes => .peshParse bytes
  | .esStrip => .esStrip
  | .pesAbsorb p => .pesAbsorb p.data
  | .pkt p => .pkt p.data
  | .reset pid => .reset pid

/-! ### The words of opcode_table.json -/

/-- The `k` low bytes of a number, most significant byte first: the table's words have the first byte in the
highest bits (30_encoding.md R90). -/
def beBytes : Nat → Nat → List Byte
  | 0, _ => []
  | k + 1, w => BitVec.ofNat 8 (w / 256 ^ k) :: beBytes k w

/-- The command a table word stands for, by the width of its format (30_encoding.md R90, R113): 32 bits a TS header word with the
rest of the packet zero, 16 bits the adaptation-field bytes of an otherwise zero block with `afc` zero, 48 bits the
six bytes of a PES header, 72 bits the first nine bytes of BUF (log entries 12 and 14). -/
def tableCommand (nbits w : Nat) : Option Command :=
  if nbits = 32 then some (.packet (beBytes 4 w ++ List.replicate 184 0#8))
  else if nbits = 16 then
    some (.afParse (List.replicate 4 0#8 ++ beBytes 2 w ++ List.replicate 182 0#8) 0#2)
  else if nbits = 48 then some (.peshParse (beBytes 6 w))
  else if nbits = 72 then some .esStrip
  else none

/-- The operation the decoder reads from a word of the table. -/
def decodeTableWord (nbits w : Nat) : Option Instr :=
  match tableCommand nbits w with
  | none => none
  | some c =>
    match decode c with
    | .ok i => some i
    | .error _ => none

end Sys2Proof
end

