-- ==== Sys2Proof/Machine/State.lean ====
section
/-! DEFINITION. The machine's state (spec 10_state.md), the reasons it can stop, and the state after reset (R42). -/

namespace Sys2Proof.Machine

/-- The decoded TS header registers (R20). -/
structure Tsh where
  syncByte               : Byte
  errorIndicator         : BitVec 1
  payloadUnitStart       : BitVec 1
  priority               : BitVec 1
  pid                    : BitVec 13
  scramblingControl      : BitVec 2
  adaptationFieldControl : BitVec 2
  continuityCounter      : BitVec 4
  deriving DecidableEq, Repr

/-- All eight header registers zero: their value after RESET and after a failed TSH.PARSE (R22, R131). -/
def Tsh.zero : Tsh := ⟨0, 0, 0, 0, 0, 0, 0, 0⟩

/-- The decoded adaptation-field registers (R27). -/
structure Af where
  length         : BitVec 8
  discontinuity  : BitVec 1
  randomAccess   : BitVec 1
  priority       : BitVec 1
  pcrPresent     : BitVec 1
  opcrPresent    : BitVec 1
  splicingPoint  : BitVec 1
  privateData    : BitVec 1
  extension      : BitVec 1
  deriving DecidableEq, Repr

/-- A PES header value (R30). -/
structure PesHeader where
  startCodePrefix : BitVec 24
  streamId        : BitVec 8
  packetLength    : BitVec 16
  deriving DecidableEq, Repr

/-- The PES header register after RESET (R42). -/
def PesHeader.zero : PesHeader := ⟨0, 0, 0⟩

/-- The space BUF: address and byte pairs, addresses strictly rising. An address that is not listed holds no byte (R34):
reading it gives no value (log entry 10). -/
abbrev Memory := List Host.Cell

/-- The assembler registers (R32). -/
structure Asm where
  /-- R33: the 13-bit PID this instance accepts, written by RESET only. -/
  targetPid        : BitVec 13
  /-- R34: the space BUF. -/
  buffer           : Memory
  /-- R35: the logical length of BUF; 32 bits wide, and it never wraps (log entry 11). -/
  bytesAccumulated : Nat
  /-- R36: `none` is "none seen yet" (log entry 15). -/
  lastCC           : Option (BitVec 4)
  /-- R37: false is Idle, true is Assembling. -/
  started          : Bool
  /-- R38: the header of the PES packet in progress. -/
  header           : PesHeader
  deriving DecidableEq, Repr

/-- The values of RESULT: R26's list, outside which "no operation can return anything" (R275). Its model fault BufferOverflow
is `Fault.bufferOverflow`: no state follows it (R283; log entry 16). -/
inductive Result where
  /-- `none`: after RESET, before any operation. -/
  | noResult
  | unexpectedPid
  | streamPacketLost
  | assemblingStarted
  | assemblingContinue
  | assemblingFinished
  | syncError
  | invalidSync
  | invalidAfc
  deriving DecidableEq, Repr

/-- What PESH.PARSE or ES.STRIP hands back to the host: they have no register group of CORE (R31, R170, R260; log entry 6). -/
inductive Returned where
  | nothing
  /-- PESH.PARSE: `Ok(h)`. -/
  | pesHeader (h : PesHeader)
  /-- PESH.PARSE with fewer than six bytes (R176). -/
  | pesHeaderTruncated
  /-- ES.STRIP: the chunk. -/
  | esChunk (bytes : List Byte)
  /-- ES.STRIP on fewer than six bytes (R263). -/
  | noPesHeader
  /-- ES.STRIP where the header length passes the buffer's end (R263). -/
  | headerBeyondBuffer
  deriving DecidableEq, Repr

/-- The whole machine: CORE's registers and BUF, its build parameter, and the host's side of the interface. -/
structure State where
  tsh       : Tsh
  af        : Option Af
  result    : Result
  asm       : Asm
  /-- BUF_CAP (R10): no operation writes it. -/
  cfg       : Config
  /-- The host: what it still asks for, oldest first (R253, R265; log entry 1). -/
  requests  : List Request
  /-- The host: the bytes of its packet stream not yet presented (R250; log entry 1). -/
  stream    : List Byte
  /-- The host: how many bytes of the stream have been presented (R24, R250; log entry 1). -/
  streamPos : Nat
  /-- The host: the value the last PESH.PARSE or ES.STRIP handed back (log entry 6). -/
  returned  : Returned
  /-- The host: the elementary-stream chunks extracted so far, oldest first (R254, R264; log entry 6). -/
  chunks    : List (List Byte)
  /-- The model: how many free values have been taken (log entry 19). -/
  freeCount : Nat
  deriving DecidableEq, Repr

/-- Faults: the machine stops. -/
inductive Fault where
  /-- An append would make BUF longer than BUF_CAP. Raised by BufAppend inside PES.ABSORB, PKT and the packet classes
  (R187, R283). Safe: the spec defines no state after it. -/
  | bufferOverflow
  /-- The continuity check runs while Assembling and no counter has been seen. Raised by PES.ABSORB, PKT and the packet
  classes in states that no run from reset reaches (R40 (b); log entry 8). Safe. -/
  | assemblingWithoutCounter
  deriving DecidableEq, Repr

/-- Refusals: the model has no move. -/
inductive Refusal where
  /-- An operation that has no meaning in the model yet. Raised by `exec`'s refused arms. Safe. -/
  | notModelled (mnemonic : String)
  /-- A command presents a block shorter than 188 bytes, which "must not be parsed" (R251, U7). Raised by the decoder.
  Safe. -/
  | truncatedBlock
  /-- The host feeds from a stream that holds no whole block any more: the end of the run (R251, R252; log entry 9).
  Raised by the fetch. Safe. -/
  | endOfStream
  /-- The host asks for nothing: the end of the run (R252; log entry 9). Raised by the fetch. Safe. -/
  | noRequest
  /-- PES.ABSORB used alone with TSH or AF not decoded from the packet it is given, which "is outside this spec" (R245,
  U10; log entry 7). Raised by PES.ABSORB. Safe. -/
  | operandsNotFromPacket
  /-- A read of BUF at or above its length, which is "outside the interface" (R253, U3, decision D28; log entry 10). Raised by
  the host's read port, and by ES.STRIP in states where BUF does not hold the bytes its length counts, which no run
  reaches (R40 (a)). Safe. -/
  | bufReadBeyondLength
  deriving DecidableEq, Repr

/-- The assembler after RESET(pid) (R42, R246). -/
def Asm.fresh (pid : BitVec 13) : Asm where
  targetPid := pid
  buffer := []
  bytesAccumulated := 0
  lastCC := none
  started := false
  header := PesHeader.zero

/-- The machine right after reset (R42). The spec has no default PID and leaves BUF_CAP open: 0 and 65724 are the
model's (log entries 2 and 3). The host has asked for nothing yet (log entry 1), and no free value has been taken (log entry 19). -/
def State.reset : State where
  tsh := Tsh.zero
  af := none
  result := .noResult
  asm := Asm.fresh 0
  cfg := { bufCap := 65724 }
  requests := []
  stream := []
  streamPos := 0
  returned := .nothing
  chunks := []
  freeCount := 0

end Sys2Proof.Machine
end

