-- ==== Sys2Proof/Machine/Ops.lean ====
section
/-! DEFINITION. The named operations over BUF and the registers (spec 00_scope.md R14, R15; 43_pes_assembler.md R186,
R187), and how an operation ends: with a result, an error result or a fault (60_exceptions.md R275, R283, R288). -/

namespace Sys2Proof.Machine

/-- What an operation answers. -/
abbrev Out := Host.Outcome State Fault Refusal

/-! ### BUF as a memory -/

/-- The canonical form: addresses strictly rising. An unlisted address holds no byte, so no entry equals it. -/
def Memory.wf (m : Memory) : Bool := decide (m.Pairwise fun c d => c.1 < d.1)

/-- The byte at an address, if the address holds one. -/
def Memory.read (m : Memory) (a : Nat) : Option Byte := (m.find? fun c => c.1 == a).map Prod.snd

/-- `MemRead(BUF, a, n)` (R14): `n` bytes from address `a`, first address first. -/
def Memory.readBytes (m : Memory) : Nat → Nat → Option (List Byte)
  | _, 0 => some []
  | a, n + 1 =>
    match m.read a with
    | none => none
    | some b =>
      match Memory.readBytes m (a + 1) n with
      | none => none
      | some bs => some (b :: bs)

/-- Bytes as cells at rising addresses from `a`. -/
def cellsFrom (a : Nat) : List Byte → Memory
  | [] => []
  | b :: bs => (a, b) :: cellsFrom (a + 1) bs

/-- Write bytes at addresses `a` upward (R14). -/
def Memory.writeBytes (m : Memory) (a : Nat) (bytes : List Byte) : Memory :=
  m.filter (fun c => c.1 < a) ++ cellsFrom a bytes ++ m.filter (fun c => a + bytes.length ≤ c.1)

/-! ### The assembler's registers -/

/-- BufReset() (R186). -/
def Asm.bufReset (a : Asm) : Asm := { a with buffer := [], bytesAccumulated := 0 }

/-- The write of BufAppend (R187), when there is room. -/
def Asm.append (a : Asm) (bytes : List Byte) : Asm :=
  { a with
    buffer := Memory.writeBytes a.buffer a.bytesAccumulated bytes
    bytesAccumulated := a.bytesAccumulated + bytes.length }

/-- BufAppend(bytes) (R187): a fault when BUF would grow beyond `cap`. -/
def Asm.bufAppend (cap : Nat) (bytes : List Byte) (a : Asm) : Except Fault Asm :=
  if a.bytesAccumulated + bytes.length > cap then .error .bufferOverflow else .ok (a.append bytes)

/-- `ASM.lastCC <- cc` (R197). -/
def Asm.recordCounter (a : Asm) (cc : BitVec 4) : Asm := { a with lastCC := some cc }

/-- `ASM.started <- b` (R188). -/
def Asm.setStarted (a : Asm) (b : Bool) : Asm := { a with started := b }

/-- `ASM.header <- h` (R195). -/
def Asm.setHeader (a : Asm) (h : PesHeader) : Asm := { a with header := h }

/-! ### The machine's registers -/

/-- What TSH and AF hold once a packet is decoded (R240). -/
def State.present (s : State) (tsh : Tsh) (af : Option Af) : State := { s with tsh := tsh, af := af }

/-- TSH alone (R130). -/
def State.setTsh (s : State) (tsh : Tsh) : State := { s with tsh := tsh }

/-- AF alone (R150). -/
def State.setAf (s : State) (af : Option Af) : State := { s with af := af }

/-- The assembler's registers as an operation leaves them. -/
def State.setAsm (s : State) (a : Asm) : State := { s with asm := a }

/-- RESULT (R26). -/
def State.setResult (s : State) (r : Result) : State := { s with result := r }

/-- The value handed back to the host by an operation that has no register group of CORE (R31, R260). -/
def State.giveBack (s : State) (r : Returned) : State := { s with returned := r }

/-! ### How an operation ends -/

/-- `return r`, and `raise r` as well: an error is a result like any other, nothing is saved, no mode changes, no control
transfers, and the next operation is whatever the host issues next (R15, R275, R288). There is no return from an
error beside it: "There is no return instruction" (R289). -/
def finish (r : Result) (s : State) : Out := .next (s.setResult r)

/-- The values of R26 that RESULT may take after a decoder that raised neither InvalidSync nor InvalidAfc: those two are raised
exactly on the conditions of R131 and R151, and no rule excludes another (log entry 19). -/
def Result.unstated : Fin 7 → Result
  | 0 => .noResult
  | 1 => .unexpectedPid
  | 2 => .streamPacketLost
  | 3 => .assemblingStarted
  | 4 => .assemblingContinue
  | 5 => .assemblingFinished
  | 6 => .syncError

/-- A free value is taken (log entry 19). -/
def State.takeFree (s : State) : State := { s with freeCount := s.freeCount + 1 }

/-- The end of an operation that writes RESULT, as every operation does (R26), and whose own result is none of the values R26 lists:
RESULT is a free value (log entry 19). -/
def finishUnstated (s : State) : Out := finish (.unstated (Config.freeResult s.freeCount)) s.takeFree

/-- The end of an operation of the assembler: its registers and its outcome, or the fault of BufAppend (R283). -/
def commit (s : State) : Except Fault (Asm × Result) → Out
  | .ok (a, r) => finish r (s.setAsm a)
  | .error f => .fault f

/-! ### The host's read port -/

/-- The byte of BUF at an address below `ASM.bytesAccumulated`; any other read is refused (R253, decision D28). -/
def bufRead (s : State) (a : Nat) : Except Refusal Byte :=
  if a < s.asm.bytesAccumulated then
    match Memory.read s.asm.buffer a with
    | some b => .ok b
    | none => .error .bufReadBeyondLength
  else .error .bufReadBeyondLength

/-- The numeric codes of results, for implementations that need numbers (R276, decision D17). -/
def Result.code : Result → Nat
  | .unexpectedPid => 0
  | .streamPacketLost => 1
  | .assemblingStarted => 2
  | .assemblingContinue => 3
  | .assemblingFinished => 4
  | .syncError => 5
  | .invalidSync => 5
  | .invalidAfc => 6
  | .noResult => 7

end Sys2Proof.Machine
end

