-- ==== Sys2Proof/Machine/Operands.lean ====
section
/-! DEFINITION. The operand forms: the three decoders' formats (spec 30_encoding.md R91, R94, R97), and the positions
and lengths computed from them (R99), none of which wraps (decision D4). -/

namespace Sys2Proof.Machine

/-- Format TSH over the first four bytes; `none` is InvalidSync (R91, R130, R131). -/
def parseTsh (p : Block 188) : Option Tsh :=
  if p.byte 0 = syncByte then
    some {
      syncByte := p.byte 0
      errorIndicator := errorIndicatorOf (p.byte 1)
      payloadUnitStart := payloadUnitStartOf (p.byte 1)
      priority := priorityOf (p.byte 1)
      pid := pidOf (p.byte 1) (p.byte 2)
      scramblingControl := scramblingControlOf (p.byte 3)
      adaptationFieldControl := adaptationFieldControlOf (p.byte 3)
      continuityCounter := continuityCounterOf (p.byte 3) }
  else none

/-- The TSH registers of a packet of a class: its operands with the bits the class fixes (R111). -/
def classTsh (pusi : BitVec 1) (afc : BitVec 2) (h : HeaderFields) : Tsh where
  syncByte := syncByte
  errorIndicator := h.errorIndicator
  payloadUnitStart := pusi
  priority := h.priority
  pid := h.pid
  scramblingControl := h.scramblingControl
  adaptationFieldControl := afc
  continuityCounter := h.continuityCounter

/-- Format AFH: the length byte and the flag octet, bit 7 first (R94, R95). The flags are taken from the octet
whatever the length is (R156). -/
def parseAf (length flags : Byte) : Af where
  length := length
  discontinuity := flags.extractLsb' 7 1
  randomAccess := flags.extractLsb' 6 1
  priority := flags.extractLsb' 5 1
  pcrPresent := flags.extractLsb' 4 1
  opcrPresent := flags.extractLsb' 3 1
  splicingPoint := flags.extractLsb' 2 1
  privateData := flags.extractLsb' 1 1
  extension := flags.extractLsb' 0 1

/-- The adaptation field of a packet: addresses 4 and 5 (R150). -/
def packetAf (p : Block 188) : Af := parseAf (p.byte 4) (p.byte 5)

/-- The adaptation field of a class's body, whose first byte is address 4. -/
def bodyAf (body : Block 184) : Af := parseAf (body.byte 0) (body.byte 1)

/-- Format PESH over the bytes available; `none` is PesHeaderTruncated (R97, R170, R176). -/
def parsePesHeader : List Byte → Option PesHeader
  | b0 :: b1 :: b2 :: b3 :: b4 :: b5 :: _ =>
    some { startCodePrefix := b0 ++ b1 ++ b2, streamId := b3, packetLength := b4 ++ b5 }
  | _ => none

/-- `numBytes() = AF.length + 1`, 1 to 256 (R28, R154). -/
def Af.numBytes (f : Af) : Nat := f.length.toNat + 1

/-- `offset = 4 + (hasAdaptationField ? AF.numBytes() : 0)`, 4 to 260 (R192); `none` where the packet has no
adaptation field. -/
def payloadOffset : Option Af → Nat
  | none => 4
  | some f => 4 + f.numBytes

/-- The payload: addresses `offset` to 187, none when `offset >= 188` (R193). -/
def packetPayload (p : Block 188) (offset : Nat) : List Byte := p.data.drop offset

/-- The same bytes of a class's body. -/
def bodyPayload (body : Block 184) (offset : Nat) : List Byte := body.data.drop (offset - 4)

/-- The stream ids whose PES header is longer than six bytes: 0xC0 to 0xDF and 0xBD (R261). -/
def hasLongHeader (streamId : Byte) : Bool :=
  (0xC0#8 ≤ streamId && streamId ≤ 0xDF#8) || streamId == 0xBD#8

end Sys2Proof.Machine
end

