-- ==== Sys2Proof/Machine/Flags.lean ====
section
/-! DEFINITION. The predicates the transitions test (spec 10_state.md R21; 43_pes_assembler.md R190, R200). -/

namespace Sys2Proof.Machine

/-- `hasAdaptationField() = (AFC = 2 or AFC = 3)` (R21). -/
def hasAdaptationField (afc : BitVec 2) : Bool := afc == 2#2 || afc == 3#2

/-- `hasPayload() = (AFC = 1 or AFC = 3)` (R21). -/
def hasPayload (afc : BitVec 2) : Bool := afc == 1#2 || afc == 3#2

/-- `expectedCC = (lastCC + 1) mod 16` (R190). -/
def expectedCC (last : BitVec 4) : BitVec 4 := BitVec.ofNat 4 ((last.toNat + 1) % 16)

/-- The completion check of step S6 (R200); `packetLength + 6` does not wrap. -/
def Asm.complete (a : Asm) : Bool :=
  decide (6 ≤ a.bytesAccumulated) && decide (a.header.packetLength ≠ 0)
    && decide (a.header.packetLength.toNat + 6 ≤ a.bytesAccumulated)

end Sys2Proof.Machine
end

