-- ==== Sys2Proof/Machine/Control.lean ====
section
/-! DEFINITION. RESET (spec 44_packet_step.md R246 to R248). -/

namespace Sys2Proof.Machine

/-- RESET(pid) (R246). BUF_CAP "is fixed when the hardware is built" (R248), and the host's side is not CORE's to reset
(R43; log entry 17). -/
def execReset (pid : BitVec 13) (s : State) : Out :=
  finish .noResult ((s.present Tsh.zero none).setAsm (Asm.fresh pid))

end Sys2Proof.Machine
end

