-- ==== Sys2Proof/Machine/Decoders.lean ====
section
/-! DEFINITION. The three decoders as operations of their own (spec 40_ts_header.md, 41_adaptation_field.md,
42_pes_header.md; 44_packet_step.md R245). -/

namespace Sys2Proof.Machine

/-- TSH.PARSE (R130, R131). A failure leaves the eight registers zero and AF `none` (R29; log entry 5). RESULT after a success is a
free value (R26; log entry 19). -/
def execTshParse (p : Block 188) (s : State) : Out :=
  match parseTsh p with
  | some tsh => finishUnstated (s.setTsh tsh)
  | none => finish .invalidSync (s.present Tsh.zero none)

/-- AF.PARSE (R150, R151). RESULT after a success is a free value (R26; log entry 19). -/
def execAfParse (p : Block 188) (afc : BitVec 2) (s : State) : Out :=
  if hasAdaptationField afc then finishUnstated (s.setAf (some (packetAf p)))
  else finish .invalidAfc (s.setAf none)

/-- PESH.PARSE (R170, R176): it "returns a value and writes no state" (R31) beside RESULT, which every operation writes (R26; log
entry 4): a free value (log entry 19). -/
def execPeshParse (bytes : List Byte) (s : State) : Out :=
  match parsePesHeader bytes with
  | some h => finishUnstated (s.giveBack (.pesHeader h))
  | none => finishUnstated (s.giveBack .pesHeaderTruncated)

end Sys2Proof.Machine
end

