-- ==== Sys2Proof/Machine/Extraction.lean ====
section
/-! DEFINITION. ES.STRIP, the host's extraction of the elementary stream from BUF (spec 45_host_extraction.md). -/

namespace Sys2Proof.Machine

/-- The header length (R260, R261): 6, or `9 + BUF[8]` for the listed stream ids when the buffer holds nine bytes or more. `none`
where BUF does not hold a byte that the length counts. -/
def stripLength (m : Memory) (len : Nat) : Option Nat :=
  match Memory.read m 3 with
  | none => none
  | some streamId =>
    if hasLongHeader streamId && decide (9 ≤ len) then
      match Memory.read m 8 with
      | none => none
      | some dataLength => some (9 + dataLength.toNat)
    else some 6

/-- The host receives a chunk, after those it has (R264: in the order of the calls). One call adds one chunk, a second call on one
buffer a second one: DESIGN CHOICE, log entry 18. -/
def State.giveChunk (s : State) (bytes : List Byte) : State :=
  { s with returned := .esChunk bytes, chunks := s.chunks ++ [bytes] }

/-- ES.STRIP (R260, R263). It is the host's and writes nothing in CORE, RESULT included (R260, R265 H7). R264 and R320 say when the host calls it: after a PKT that returned
`assemblingFinished` and before the next PKT. They leave open what a call outside that window does (mid-assembly, after a loss, a
second time on one buffer); there too the model runs R260 on what BUF holds, with no test of RESULT or `started`: DESIGN CHOICE,
log entry 18. -/
def execEsStrip (s : State) : Out :=
  let len := s.asm.bytesAccumulated
  if len < 6 then .next (s.giveBack .noPesHeader)
  else
    match stripLength s.asm.buffer len with
    | none => .refused .bufReadBeyondLength
    | some headerLength =>
      if len < headerLength then .next (s.giveBack .headerBeyondBuffer)
      else
        match Memory.readBytes s.asm.buffer headerLength (len - headerLength) with
        | none => .refused .bufReadBeyondLength
        | some bytes => .next (s.giveChunk bytes)

end Sys2Proof.Machine
end

