-- ==== Sys2Proof/Machine/Assembler.lean ====
section
/-! DEFINITION. PES.ABSORB (spec 43_pes_assembler.md R185 to R209): the PID filter and continuity validator, the start
and the continuation of a PES packet, as functions of the assembler's registers alone. -/

namespace Sys2Proof.Machine

/-- What steps S1 and S2 decide about a packet (R189, R190). -/
inductive Admission where
  /-- S1: another PID. -/
  | foreign
  /-- S2: Assembling, and the counter is not the expected one. -/
  | lost
  /-- S2: Assembling with no counter seen; no reachable state has it (R40 (b); log entry 8). -/
  | unknownCounter
  /-- S3 is reached. -/
  | accepted
  deriving DecidableEq, Repr

/-- Steps S1 and S2 (R189, R190). -/
def admission (tsh : Tsh) (a : Asm) : Admission :=
  if tsh.pid ≠ a.targetPid then .foreign
  else if a.started then
    match a.lastCC with
    | none => .unknownCounter
    | some last => if tsh.continuityCounter = expectedCC last then .accepted else .lost
  else .accepted

/-- Steps S1 to S3, then `k` on the assembler with the packet's counter recorded (R189, R190, R197). -/
def admitted (tsh : Tsh) (a : Asm) (k : Asm → Except Fault (Asm × Result)) : Except Fault (Asm × Result) :=
  match admission tsh a with
  | .foreign => .ok (a, .unexpectedPid)
  | .lost => .ok ((a.setStarted false).bufReset, .streamPacketLost)
  | .unknownCounter => .error .assemblingWithoutCounter
  | .accepted => k (a.recordCounter tsh.continuityCounter)

/-- Step S5 on the payload bytes, which are the `n` bytes from `offset` (R194, R195, R196). -/
def startPes (cap : Nat) (payload : List Byte) (a : Asm) : Except Fault (Asm × Result) :=
  match parsePesHeader payload with
  | some h =>
    match (((a.bufReset).setHeader h).setStarted true).bufAppend cap payload with
    | .ok a' => .ok (a', .assemblingStarted)
    | .error f => .error f
  | none =>
    .ok ((a.bufReset).setStarted false, if a.started then .assemblingFinished else .unexpectedPid)

/-- Step S6 where there is nothing to do (R198). -/
def ignorePacket (a : Asm) : Except Fault (Asm × Result) := .ok (a, .unexpectedPid)

/-- Step S6 on the payload bytes of a packet that carries payload (R198 to R201). -/
def continuePes (cap : Nat) (payload : List Byte) (a : Asm) : Except Fault (Asm × Result) :=
  if a.started then
    match a.bufAppend cap payload with
    | .ok a' => if a'.complete then .ok (a'.setStarted false, .assemblingFinished) else .ok (a', .assemblingContinue)
    | .error f => .error f
  else ignorePacket a

/-- PES.ABSORB (R185). `adapt` is AF where the packet has an adaptation field and `none` where it has none, so that AF
is consulted only when `hasAdaptationField()` (R192). -/
def absorb (cap : Nat) (p : Block 188) (tsh : Tsh) (adapt : Option Af) (a : Asm) : Except Fault (Asm × Result) :=
  admitted tsh a fun a =>
    if tsh.payloadUnitStart = 1#1 then startPes cap (packetPayload p (payloadOffset adapt)) a
    else if hasPayload tsh.adaptationFieldControl then continuePes cap (packetPayload p (payloadOffset adapt)) a
    else ignorePacket a

/-- The precondition of PES.ABSORB used alone: "header + adaptation field already decoded" from the same packet (R185,
R245). AF is an argument only when the packet has an adaptation field. -/
def operandsFromPacket (p : Block 188) (tsh : Tsh) (af : Option Af) : Bool :=
  decide (parseTsh p = some tsh) &&
    (!hasAdaptationField tsh.adaptationFieldControl || decide (af = some (packetAf p)))

/-- PES.ABSORB on its own (R185, R245): TSH and AF are the registers; where they were not decoded from this packet the
behaviour "is outside this spec" (R245, U10; log entry 7). -/
def execPesAbsorb (p : Block 188) (s : State) : Out :=
  if operandsFromPacket p s.tsh s.af then
    commit s (absorb s.cfg.bufCap p s.tsh
      (if hasAdaptationField s.tsh.adaptationFieldControl then s.af else none) s.asm)
  else .refused .operandsNotFromPacket

end Sys2Proof.Machine
end

