-- ==== Sys2Proof/Machine/Packet.lean ====
section
/-! DEFINITION. PKT (spec 44_packet_step.md R240 to R244) and its nine classes (43_pes_assembler.md R210 to R217,
44_packet_step.md R242). -/

namespace Sys2Proof.Machine

/-- PKT (R240): TSH.PARSE, then AF.PARSE if there is an adaptation field, then PES.ABSORB. -/
def execPkt (p : Block 188) (s : State) : Out :=
  match parseTsh p with
  | none => finish .syncError (s.present Tsh.zero none)
  | some tsh =>
    let adapt := if hasAdaptationField tsh.adaptationFieldControl then some (packetAf p) else none
    commit (s.present tsh adapt) (absorb s.cfg.bufCap p tsh adapt s.asm)

/-- A class without adaptation field: S1 to S3, then `k` on the 184 bytes from offset 4 (R210, R211, R214, R215). -/
def plainClass (pusi : BitVec 1) (afc : BitVec 2) (h : HeaderFields) (body : Block 184)
    (k : List Byte → Asm → Except Fault (Asm × Result)) (s : State) : Out :=
  commit (s.present (classTsh pusi afc h) none) (admitted (classTsh pusi afc h) s.asm (k (bodyPayload body 4)))

/-- A class with adaptation field: AF.PARSE, S1 to S3, then `k` on the bytes from offset `5 + AF.length` (R212, R213,
R216, R217). -/
def adaptedClass (pusi : BitVec 1) (afc : BitVec 2) (h : HeaderFields) (body : Block 184)
    (k : List Byte → Asm → Except Fault (Asm × Result)) (s : State) : Out :=
  commit (s.present (classTsh pusi afc h) (some (bodyAf body)))
    (admitted (classTsh pusi afc h) s.asm (k (bodyPayload body (payloadOffset (some (bodyAf body))))))

/-- PKT.CONT.AFC0 (R210): no payload, nothing to do after S3. -/
def execPktContAfc0 (h : HeaderFields) (body : Block 184) (s : State) : Out :=
  plainClass 0 0 h body (fun _ => ignorePacket) s

/-- PKT.CONT.AFC1 (R211). -/
def execPktContAfc1 (h : HeaderFields) (body : Block 184) (s : State) : Out :=
  plainClass 0 1 h body (continuePes s.cfg.bufCap) s

/-- PKT.CONT.AFC2 (R212): AF is decoded, no payload. -/
def execPktContAfc2 (h : HeaderFields) (body : Block 184) (s : State) : Out :=
  adaptedClass 0 2 h body (fun _ => ignorePacket) s

/-- PKT.CONT.AFC3 (R213). -/
def execPktContAfc3 (h : HeaderFields) (body : Block 184) (s : State) : Out :=
  adaptedClass 0 3 h body (continuePes s.cfg.bufCap) s

/-- PKT.START.AFC0 (R214): S5 does not test `hasPayload()`. -/
def execPktStartAfc0 (h : HeaderFields) (body : Block 184) (s : State) : Out :=
  plainClass 1 0 h body (startPes s.cfg.bufCap) s

/-- PKT.START.AFC1 (R215). -/
def execPktStartAfc1 (h : HeaderFields) (body : Block 184) (s : State) : Out :=
  plainClass 1 1 h body (startPes s.cfg.bufCap) s

/-- PKT.START.AFC2 (R216). -/
def execPktStartAfc2 (h : HeaderFields) (body : Block 184) (s : State) : Out :=
  adaptedClass 1 2 h body (startPes s.cfg.bufCap) s

/-- PKT.START.AFC3 (R217). -/
def execPktStartAfc3 (h : HeaderFields) (body : Block 184) (s : State) : Out :=
  adaptedClass 1 3 h body (startPes s.cfg.bufCap) s

/-- PKT.SYNCERR (R242): TSH zero, AF `none`, the assembler untouched. -/
def execPktSyncErr (s : State) : Out := finish .syncError (s.present Tsh.zero none)

end Sys2Proof.Machine
end

