-- ==== Sys2Proof/Machine/Dispatch.lean ====
section
/-! DEFINITION. The dispatch from an operation to its meaning. -/

namespace Sys2Proof.Machine

def exec (i : Instr) (s : State) : Host.Outcome State Fault Refusal :=
  match i with
  | .pktContAfc0 h body => Sys2Proof.Machine.execPktContAfc0 h body s
  | .pktContAfc1 h body => Sys2Proof.Machine.execPktContAfc1 h body s
  | .pktContAfc2 h body => Sys2Proof.Machine.execPktContAfc2 h body s
  | .pktContAfc3 h body => Sys2Proof.Machine.execPktContAfc3 h body s
  | .pktStartAfc0 h body => Sys2Proof.Machine.execPktStartAfc0 h body s
  | .pktStartAfc1 h body => Sys2Proof.Machine.execPktStartAfc1 h body s
  | .pktStartAfc2 h body => Sys2Proof.Machine.execPktStartAfc2 h body s
  | .pktStartAfc3 h body => Sys2Proof.Machine.execPktStartAfc3 h body s
  | .pktSyncErr _ _ => Sys2Proof.Machine.execPktSyncErr s
  | .tshParse p => Sys2Proof.Machine.execTshParse p s
  | .afParse p afc => Sys2Proof.Machine.execAfParse p afc s
  | .peshParse bytes => Sys2Proof.Machine.execPeshParse bytes s
  | .esStrip => Sys2Proof.Machine.execEsStrip s
  | .pesAbsorb p => Sys2Proof.Machine.execPesAbsorb p s
  | .pkt p => Sys2Proof.Machine.execPkt p s
  | .reset pid => Sys2Proof.Machine.execReset pid s

end Sys2Proof.Machine
end

