-- ==== Sys2Proof/Machine/Fetch.lean ====
section
/-! DEFINITION. Taking the host's next request (spec 44_packet_step.md R250 to R253; log entry 1), and placing a word of
opcode_table.json where the next step takes it. -/

namespace Sys2Proof.Machine

/-- The next command and the state with its request taken. A feed presents stream bytes `streamPos` to
`streamPos + 187`, found by counting alone (R250); fewer than 188 bytes are no packet (R251). -/
def fetch (s : State) : Except Refusal (Command × State) :=
  match s.requests with
  | [] => .error .noRequest
  | .issue c :: rest => .ok (c, { s with requests := rest })
  | .feed :: rest =>
    if s.stream.length < 188 then .error .endOfStream
    else .ok (.packet (s.stream.take 188),
      { s with requests := rest, stream := s.stream.drop 188, streamPos := s.streamPos + 188 })

/-- The refusal a rejected command ends in. -/
def rejection : DecodeReject → Refusal
  | .truncatedBlock => .truncatedBlock

/-- A command placed before what the host already asks for. -/
def State.placeCommand (s : State) (c : Command) : State := { s with requests := .issue c :: s.requests }

/-- BUF holding exactly these bytes from address 0. -/
def State.placeBuffer (s : State) (bytes : List Byte) : State :=
  { s with asm := { s.asm with buffer := cellsFrom 0 bytes, bytesAccumulated := bytes.length } }

/-- A table word placed where the next step takes it: its command first in line; for the 72-bit format PESX, whose word is
the contents of BUF (30_encoding.md R98), the nine bytes in BUF as well (log entry 14). -/
def State.placeTableWord (s : State) (nbits w : Nat) : State :=
  match tableCommand nbits w with
  | none => s
  | some c => if nbits = 72 then (s.placeBuffer (beBytes 9 w)).placeCommand c else s.placeCommand c

end Sys2Proof.Machine
end

