-- ==== Sys2Proof/Machine/Step.lean ====
section
/-! DEFINITION. One step of the machine: the host's next request is taken, decoded and executed (spec 00_scope.md R19,
20_memory.md R69). -/

namespace Sys2Proof.Machine

def step (s : State) : Host.Outcome State Fault Refusal :=
  match fetch s with
  | .error r => .refused r
  | .ok (c, s') =>
    match decode c with
    | .error e => .refused (rejection e)
    | .ok i => exec i s'

/-- The state with a word of opcode_table.json where `step` takes its next operation. -/
def State.withFetchWord (s : State) (nbits w : Nat) : State := s.placeTableWord nbits w

end Sys2Proof.Machine
end

