-- ==== Sys2Proof/Safety.lean ====
section
/-! DEFINITION. What claims speak of: the invariants of a run (spec 10_state.md R39, R40; 43_pes_assembler.md R204),
and runs of PKT over a sequence of packets (00_scope.md R19). -/

namespace Sys2Proof.Machine

/-- BUF holds one byte at each address below `ASM.bytesAccumulated`, in rising order, and no other (R34, R40 (a)). -/
abbrev Asm.BufferExact (a : Asm) : Prop := a.buffer.map Prod.fst = List.range a.bytesAccumulated

/-- What the assembler's registers satisfy in every state a run reaches. -/
structure Asm.Inv (cap : Nat) (a : Asm) : Prop where
  /-- R10, R187: BUF never passes its capacity. -/
  fits : a.bytesAccumulated ≤ cap
  /-- R40 (a). -/
  exactBuffer : a.BufferExact
  /-- R40 (b). -/
  counterKnown : a.started = true → a.lastCC ≠ none
  /-- R40 (c). -/
  headerHeld : a.started = true → 6 ≤ a.bytesAccumulated
  /-- R40 (d) and (f): the header register is the one decoded from the first six bytes of BUF. -/
  headerRead : 0 < a.bytesAccumulated →
    ∃ bytes, Memory.readBytes a.buffer 0 6 = some bytes ∧ parsePesHeader bytes = some a.header
  /-- R40 (e): an unfinished bounded packet is short of its total, or holds one packet's payload only. -/
  unfinished : a.started = true → a.header.packetLength ≠ 0 →
    a.bytesAccumulated < a.header.packetLength.toNat + 6 ∨ a.bytesAccumulated ≤ 184
  /-- R39: a buffer held while Idle is one that was finished by its declared length. -/
  finished : a.started = false → 0 < a.bytesAccumulated →
    a.header.packetLength ≠ 0 ∧ a.header.packetLength.toNat + 6 ≤ a.bytesAccumulated
  /-- R204. -/
  bounded : a.header.packetLength ≠ 0 →
    a.bytesAccumulated ≤ max 184 (a.header.packetLength.toNat + 5) + 184

/-- What every state of a run satisfies. -/
structure State.Inv (s : State) : Prop where
  /-- R10. -/
  capacity : s.cfg.Legal
  assembler : s.asm.Inv s.cfg.bufCap
  /-- R22, R23: the header registers are all zero or hold a header with the sync byte. -/
  header : s.tsh = Tsh.zero ∨ s.tsh.syncByte = syncByte
  /-- R24: the stream position is a multiple of 188 at every operation boundary. -/
  aligned : s.streamPos % 188 = 0

/-- The packet passes steps S1 and S2: its PID is the target and, while Assembling, its counter is one more than the last one
modulo 16 (R189, R190). -/
def Asm.Expects (a : Asm) (pid : BitVec 13) (cc : BitVec 4) : Prop :=
  pid = a.targetPid ∧
    (a.started = true → ∃ last, a.lastCC = some last ∧ cc.toNat = (last.toNat + 1) % 16)

/-- The packet fails step S2: the target's PID, while Assembling, with another counter (R190, R279). -/
def Asm.Misses (a : Asm) (pid : BitVec 13) (cc : BitVec 4) : Prop :=
  pid = a.targetPid ∧ a.started = true ∧ ∃ last, a.lastCC = some last ∧ cc.toNat ≠ (last.toNat + 1) % 16

/-- What AF holds after the decoders have run on a packet (R29, R240): the field at addresses 4 and 5 where AFC is 2 or
3, `none` elsewhere. -/
def decodedAf (p : Block 188) (tsh : Tsh) : Option Af :=
  if tsh.adaptationFieldControl = 2#2 ∨ tsh.adaptationFieldControl = 3#2 then some (packetAf p) else none

/-- The payload offset of a packet (R192). -/
def offsetOf (p : Block 188) (tsh : Tsh) : Nat :=
  if tsh.adaptationFieldControl = 2#2 ∨ tsh.adaptationFieldControl = 3#2 then 5 + (p.byte 4).toNat else 4

/-- The payload bytes of a packet with a valid sync byte: addresses `offset` to 187 (R193). -/
def payloadOf (p : Block 188) : List Byte :=
  match parseTsh p with
  | some tsh => p.data.drop (offsetOf p tsh)
  | none => []

/-- The AFC says that the packet carries payload (R21). -/
def CarriesPayload (tsh : Tsh) : Prop := tsh.adaptationFieldControl = 1#2 ∨ tsh.adaptationFieldControl = 3#2

/-- After the append of `k` bytes the declared total is reached (R200, column `done` of R205). -/
def Asm.Reaches (a : Asm) (k : Nat) : Prop :=
  a.header.packetLength ≠ 0 ∧ a.header.packetLength.toNat + 6 ≤ a.bytesAccumulated + k

/-- The rows T1 to T10 of R205: the columns from `state before` to `done`, for a packet `p` decoded to `tsh`. -/
def rowGuard (p : Block 188) (tsh : Tsh) (a : Asm) : Nat → Prop
  | 1 => tsh.pid ≠ a.targetPid
  | 2 => a.Misses tsh.pid tsh.continuityCounter
  | 3 => a.started = false ∧ a.Expects tsh.pid tsh.continuityCounter ∧ tsh.payloadUnitStart = 1 ∧ offsetOf p tsh ≤ 182
  | 4 => a.started = false ∧ a.Expects tsh.pid tsh.continuityCounter ∧ tsh.payloadUnitStart = 1 ∧ 183 ≤ offsetOf p tsh
  | 5 => a.started = false ∧ a.Expects tsh.pid tsh.continuityCounter ∧ tsh.payloadUnitStart = 0
  | 6 => a.started = true ∧ a.Expects tsh.pid tsh.continuityCounter ∧ tsh.payloadUnitStart = 1 ∧ offsetOf p tsh ≤ 182
  | 7 => a.started = true ∧ a.Expects tsh.pid tsh.continuityCounter ∧ tsh.payloadUnitStart = 1 ∧ 183 ≤ offsetOf p tsh
  | 8 => a.started = true ∧ a.Expects tsh.pid tsh.continuityCounter ∧ tsh.payloadUnitStart = 0 ∧ ¬ CarriesPayload tsh
  | 9 => a.started = true ∧ a.Expects tsh.pid tsh.continuityCounter ∧ tsh.payloadUnitStart = 0 ∧ CarriesPayload tsh ∧
      ¬ a.Reaches (188 - offsetOf p tsh)
  | 10 => a.started = true ∧ a.Expects tsh.pid tsh.continuityCounter ∧ tsh.payloadUnitStart = 0 ∧ CarriesPayload tsh ∧
      a.Reaches (188 - offsetOf p tsh)
  | _ => False

/-- The columns from `state after` to `header` of the same rows: the assembler after the packet and the outcome. -/
def rowEffect (p : Block 188) (tsh : Tsh) (a a' : Asm) (r : Result) : Nat → Prop
  | 1 => a' = a ∧ r = .unexpectedPid
  | 2 => a' = { a with started := false, buffer := [], bytesAccumulated := 0 } ∧ r = .streamPacketLost
  | 3 | 6 => r = .assemblingStarted ∧ a'.started = true ∧ a'.lastCC = some tsh.continuityCounter ∧
      a'.targetPid = a.targetPid ∧ a'.bytesAccumulated = 188 - offsetOf p tsh ∧
      parsePesHeader (p.data.drop (offsetOf p tsh)) = some a'.header ∧
      ∀ x, Memory.read a'.buffer x = p.data[offsetOf p tsh + x]?
  | 4 => a' = { a with lastCC := some tsh.continuityCounter, started := false, buffer := [], bytesAccumulated := 0 } ∧
      r = .unexpectedPid
  | 5 | 8 => a' = { a with lastCC := some tsh.continuityCounter } ∧ r = .unexpectedPid
  | 7 => a' = { a with lastCC := some tsh.continuityCounter, started := false, buffer := [], bytesAccumulated := 0 } ∧
      r = .assemblingFinished
  | 9 | 10 => a'.lastCC = some tsh.continuityCounter ∧ a'.targetPid = a.targetPid ∧ a'.header = a.header ∧
      a'.bytesAccumulated = a.bytesAccumulated + (188 - offsetOf p tsh) ∧
      (∀ x, Memory.read a'.buffer x =
        if a.bytesAccumulated ≤ x ∧ x < a.bytesAccumulated + (188 - offsetOf p tsh)
        then p.data[offsetOf p tsh + (x - a.bytesAccumulated)]? else Memory.read a.buffer x) ∧
      ((¬ a.Reaches (188 - offsetOf p tsh) ∧ r = .assemblingContinue ∧ a'.started = true) ∨
        (a.Reaches (188 - offsetOf p tsh) ∧ r = .assemblingFinished ∧ a'.started = false))
  | _ => False

/-- BUF has room for what the packet may append: nothing held is in the way of a start, which resets BUF (R187). -/
def RoomFor (cap : Nat) (p : Block 188) (tsh : Tsh) (a : Asm) : Prop :=
  188 - offsetOf p tsh ≤ cap ∧ (tsh.payloadUnitStart = 0 → a.bytesAccumulated + (188 - offsetOf p tsh) ≤ cap)

/-- The packets have a valid sync byte, the PID `target`, and counters that go up by one modulo 16 from `c`. -/
def InSequence (target : BitVec 13) : Nat → List (Block 188) → Prop
  | _, [] => True
  | c, p :: ps =>
    (∃ tsh, parseTsh p = some tsh ∧ tsh.pid = target ∧ tsh.continuityCounter.toNat = c % 16) ∧
      InSequence target (c + 1) ps

/-- The packet has a valid sync byte and another PID than the one CORE accepts (R189). -/
def foreignPacket (target : BitVec 13) (p : Block 188) : Bool :=
  match parseTsh p with
  | some tsh => tsh.pid != target
  | none => false

/-- PKT over a sequence of packets (R19): the last state and the result of each packet, or `none` where a packet
faults. -/
def packetRun : List (Block 188) → State → Option (State × List Result)
  | [], s => some (s, [])
  | p :: ps, s =>
    match exec (.pkt p) s with
    | .next s' =>
      match packetRun ps s' with
      | some (t, rs) => some (t, s'.result :: rs)
      | none => none
    | .fault _ => none
    | .refused _ => none

/-- `n` steps, if the machine goes on for all of them. -/
def stepRun : Nat → State → Option State
  | 0, s => some s
  | n + 1, s =>
    match step s with
    | .next s' => stepRun n s'
    | .fault _ => none
    | .refused _ => none

end Sys2Proof.Machine
end

