-- ==== Sys2Proof/Certificates/Slice0/Obligations.lean ====
section
/-! DEFINITION. The statements for the provers, from the numbered rules of spec/. -/

open Sys2Proof Sys2Proof.Machine

/-! ### Encoding -/

/-- 40_ts_header.md R135, 30_encoding.md R91: the encoder's words decode to the operation, with every operand. -/
def Obligations.DecodeEncodeRoundTrip : Prop :=
  ∀ i : Instr, i.wellFormed = true → decode (encode i) = .ok i

/-- 40_ts_header.md R135, R132, R134: every 188-byte block stands for one well-formed packet class, and the encoder gives the
block back. -/
def Obligations.EveryPacketDecodesAndReencodes : Prop :=
  ∀ block : List Byte, block.length = 188 →
    ∃ i, decode (.packet block) = .ok i ∧ i.wellFormed = true ∧ encode i = .packet block

/-- 30_encoding.md R111, R114: the class is selected by `W & 0xFF400030`, and a first byte other than 0x47 gives PKT.SYNCERR. -/
def Obligations.HeaderWordSelectsClass : Prop :=
  ∀ (b0 b1 b2 b3 : Byte) (body : Block 184),
    let W : BitVec 32 := b0 ++ b1 ++ b2 ++ b3
    let d := decode (.packet (b0 :: b1 :: b2 :: b3 :: body.data))
    let h := headerFieldsOf b1 b2 b3
    (W &&& 0xFF400030#32 = 0x47000000#32 → d = .ok (.pktContAfc0 h body)) ∧
    (W &&& 0xFF400030#32 = 0x47000010#32 → d = .ok (.pktContAfc1 h body)) ∧
    (W &&& 0xFF400030#32 = 0x47000020#32 → d = .ok (.pktContAfc2 h body)) ∧
    (W &&& 0xFF400030#32 = 0x47000030#32 → d = .ok (.pktContAfc3 h body)) ∧
    (W &&& 0xFF400030#32 = 0x47400000#32 → d = .ok (.pktStartAfc0 h body)) ∧
    (W &&& 0xFF400030#32 = 0x47400010#32 → d = .ok (.pktStartAfc1 h body)) ∧
    (W &&& 0xFF400030#32 = 0x47400020#32 → d = .ok (.pktStartAfc2 h body)) ∧
    (W &&& 0xFF400030#32 = 0x47400030#32 → d = .ok (.pktStartAfc3 h body)) ∧
    (W.extractLsb' 24 8 ≠ 0x47#8 → ∃ rest, rest.data = b1 :: b2 :: b3 :: body.data ∧ d = .ok (.pktSyncErr b0 rest))

/-- 95_test_vectors.md V-TSH-1, 4, 5, 13 and 15: header words written out from the spec decode to their rows. The last clause is the
model's choice (DESIGN CHOICE, log entry 14), no rule's: how decodeTableWord lays out a 16-bit table word, an otherwise zero block
with afc 0. -/
def Obligations.KnownWordsDecode : Prop :=
  decode (.packet (0x47#8 :: 0x40#8 :: 0x88#8 :: 0x10#8 :: List.replicate 184 0#8))
    = .ok (.pktStartAfc1 ⟨0, 0, 136, 0, 0⟩ ⟨List.replicate 184 0#8, rfl⟩) ∧
  decode (.packet (0x47#8 :: 0x1F#8 :: 0xFF#8 :: 0x3F#8 :: List.replicate 184 0#8))
    = .ok (.pktContAfc3 ⟨0, 0, 8191, 0, 15⟩ ⟨List.replicate 184 0#8, rfl⟩) ∧
  decode (.packet (0x47#8 :: 0xE0#8 :: 0x00#8 :: 0xC0#8 :: List.replicate 184 0#8))
    = .ok (.pktStartAfc0 ⟨1, 1, 0, 3, 0⟩ ⟨List.replicate 184 0#8, rfl⟩) ∧
  decode (.packet (0x47#8 :: 0x00#8 :: 0x88#8 :: 0x2F#8 :: List.replicate 184 0#8))
    = .ok (.pktContAfc2 ⟨0, 0, 136, 0, 15⟩ ⟨List.replicate 184 0#8, rfl⟩) ∧
  decode (.packet (0x48#8 :: 0x40#8 :: 0x88#8 :: 0x10#8 :: List.replicate 184 0#8))
    = .ok (.pktSyncErr 0x48 ⟨0x40#8 :: 0x88#8 :: 0x10#8 :: List.replicate 184 0#8, rfl⟩) ∧
  decodeTableWord 16 0x0710
    = some (.afParse ⟨[0, 0, 0, 0, 7, 0x10] ++ List.replicate 182 0#8, rfl⟩ 0)

/-! ### The three decoders -/

/-- 40_ts_header.md R132, 30_encoding.md R92: TSH.PARSE with a valid sync byte sets the eight fields by shift and mask and
changes nothing else but RESULT, which is a free value here, and the model's count of free values (log entry 19). -/
def Obligations.TshParseReadsEveryField : Prop :=
  ∀ (p : Block 188) (s : State), p.byte 0 = 0x47#8 →
    ∃ t, exec (.tshParse p) s = .next t ∧
      t.tsh.syncByte = 0x47#8 ∧
      t.tsh.errorIndicator.toNat = (p.byte 1).toNat / 128 ∧
      t.tsh.payloadUnitStart.toNat = (p.byte 1).toNat / 64 % 2 ∧
      t.tsh.priority.toNat = (p.byte 1).toNat / 32 % 2 ∧
      t.tsh.pid.toNat = (p.byte 1).toNat % 32 * 256 + (p.byte 2).toNat ∧
      t.tsh.scramblingControl.toNat = (p.byte 3).toNat / 64 ∧
      t.tsh.adaptationFieldControl.toNat = (p.byte 3).toNat / 16 % 4 ∧
      t.tsh.continuityCounter.toNat = (p.byte 3).toNat % 16 ∧
      t.result ≠ .invalidSync ∧
      t = { s with tsh := t.tsh, result := t.result, freeCount := t.freeCount }

/-- 40_ts_header.md R131: InvalidSync exactly when the first byte is not 0x47, and then all eight fields are zero. AF is
left open here (log entry 5), as is the model's count of free values (log entry 19). -/
def Obligations.TshParseFailureZeroesHeader : Prop :=
  ∀ (p : Block 188) (s : State),
    ∃ t, exec (.tshParse p) s = .next t ∧
      (t.result = .invalidSync ↔ p.byte 0 ≠ 0x47#8) ∧
      (p.byte 0 ≠ 0x47#8 → t.tsh = ⟨0, 0, 0, 0, 0, 0, 0, 0⟩) ∧
      t = { s with tsh := t.tsh, af := t.af, result := t.result, freeCount := t.freeCount }

/-- 10_state.md R29: AF is `none` after a TSH.PARSE that fails. Beside R130 ("nothing else") this is the model's reading, log
entry 5. -/
def Obligations.FailedTshParseClearsAf : Prop :=
  ∀ (p : Block 188) (s : State), p.byte 0 ≠ 0x47#8 →
    ∃ t, exec (.tshParse p) s = .next t ∧ t.af = none

/-- 41_adaptation_field.md R155, 30_encoding.md R94, R95: AF.PARSE with `afc` 2 or 3 sets the length and the eight flags from
addresses 4 and 5, whatever they are, and changes nothing else but RESULT, a free value here, and the model's count of free
values (log entry 19). -/
def Obligations.AfParseReadsLengthAndFlags : Prop :=
  ∀ (p : Block 188) (afc : BitVec 2) (s : State), afc = 2#2 ∨ afc = 3#2 →
    ∃ t f, exec (.afParse p afc) s = .next t ∧ t.af = some f ∧
      f.length = p.byte 4 ∧
      f.discontinuity.toNat = (p.byte 5).toNat / 128 ∧
      f.randomAccess.toNat = (p.byte 5).toNat / 64 % 2 ∧
      f.priority.toNat = (p.byte 5).toNat / 32 % 2 ∧
      f.pcrPresent.toNat = (p.byte 5).toNat / 16 % 2 ∧
      f.opcrPresent.toNat = (p.byte 5).toNat / 8 % 2 ∧
      f.splicingPoint.toNat = (p.byte 5).toNat / 4 % 2 ∧
      f.privateData.toNat = (p.byte 5).toNat / 2 % 2 ∧
      f.extension.toNat = (p.byte 5).toNat % 2 ∧
      t.result ≠ .invalidAfc ∧
      t = { s with af := t.af, result := t.result, freeCount := t.freeCount }

/-- 41_adaptation_field.md R151: InvalidAfc exactly when `afc` is 0 or 1, whatever the packet holds; AF is then `none`. The model's
count of free values is left open (log entry 19). -/
def Obligations.AfParseInvalidAfcExactlyOnZeroOrOne : Prop :=
  ∀ (p : Block 188) (afc : BitVec 2) (s : State),
    ∃ t, exec (.afParse p afc) s = .next t ∧
      (t.result = .invalidAfc ↔ afc = 0#2 ∨ afc = 1#2) ∧
      (t.af = none ↔ afc = 0#2 ∨ afc = 1#2) ∧
      t = { s with af := t.af, result := t.result, freeCount := t.freeCount }

/-- 41_adaptation_field.md R154: `numBytes` is 1 to 256 and the payload offset 5 to 260, without wrap-around. -/
def Obligations.AdaptationSizeNeverWraps : Prop :=
  ∀ f : Af, f.numBytes = f.length.toNat + 1 ∧ 1 ≤ f.numBytes ∧ f.numBytes ≤ 256 ∧
    payloadOffset (some f) = 4 + f.numBytes ∧ payloadOffset (some f) = 5 + f.length.toNat ∧
    5 ≤ payloadOffset (some f) ∧ payloadOffset (some f) ≤ 260

/-- 42_pes_header.md R170, R171: PESH.PARSE accepts any six bytes and returns the big-endian fields; no register of CORE changes
but RESULT, which is a free value here (log entries 4 and 19). Where the value is handed back is the model's (log entry 6). -/
def Obligations.PeshParseReturnsBigEndianFields : Prop :=
  ∀ (b0 b1 b2 b3 b4 b5 : Byte) (more : List Byte) (s : State),
    ∃ (h : PesHeader) (t : State), exec (.peshParse (b0 :: b1 :: b2 :: b3 :: b4 :: b5 :: more)) s = .next t ∧
      t = { s with returned := .pesHeader h, result := t.result, freeCount := t.freeCount } ∧
      h.startCodePrefix.toNat = b0.toNat * 65536 + b1.toNat * 256 + b2.toNat ∧
      h.streamId = b3 ∧
      h.packetLength.toNat = b4.toNat * 256 + b5.toNat

/-- 42_pes_header.md R176: fewer than six bytes give PesHeaderTruncated, handed back as in log entry 6; RESULT is a free value
(log entries 4 and 19). -/
def Obligations.PeshParseTruncatedBelowSix : Prop :=
  ∀ (bytes : List Byte) (s : State), ∃ t, exec (.peshParse bytes) s = .next t ∧
    t = { s with returned := t.returned, result := t.result, freeCount := t.freeCount } ∧
    (bytes.length < 6 → t.returned = .pesHeaderTruncated) ∧
    (6 ≤ bytes.length → ∃ h, t.returned = .pesHeader h)

/-- 10_state.md R26, 40_ts_header.md R131, 41_adaptation_field.md R151: every operation of CORE writes RESULT, so that InvalidSync
stands there after a TSH.PARSE whose first byte is not 0x47 and after no other operation, and InvalidAfc after an AF.PARSE with
`afc` 0 or 1 and after no other; ES.STRIP, the host's, leaves RESULT as it is (45_host_extraction.md R260). That
the decoders used alone write it is the model's reading (DEDUCED, log entry 4), as is that their free value is neither error
(DESIGN CHOICE, log entry 19). -/
def Obligations.DecoderErrorsStandAfterTheirDecoderOnly : Prop :=
  ∀ (i : Instr) (s t : State), exec i s = .next t →
    (i ≠ .esStrip →
      (t.result = .invalidSync ↔ ∃ p, i = .tshParse p ∧ p.byte 0 ≠ 0x47#8) ∧
      (t.result = .invalidAfc ↔ ∃ p afc, i = .afParse p afc ∧ (afc = 0#2 ∨ afc = 1#2))) ∧
    (i = .esStrip → t.result = s.result)

/-! ### PKT, by the rows of the transition table -/

/-- 44_packet_step.md R242: a bad sync byte gives SyncError, zero header registers, no AF, and leaves the assembler and BUF, in
the composite and in its class. -/
def Obligations.SyncErrorLeavesAssembler : Prop :=
  ∀ s : State,
    (∀ p : Block 188, p.byte 0 ≠ 0x47#8 →
      exec (.pkt p) s = .next { s with tsh := ⟨0, 0, 0, 0, 0, 0, 0, 0⟩, af := none, result := .syncError }) ∧
    (∀ (sync : Byte) (rest : Block 187), exec (.pktSyncErr sync rest) s
      = .next { s with tsh := ⟨0, 0, 0, 0, 0, 0, 0, 0⟩, af := none, result := .syncError })

/-- 43_pes_assembler.md R189: another PID gives UnexpectedPid and leaves every ASM register and BUF. -/
def Obligations.ForeignPidLeavesAssembler : Prop :=
  ∀ (p : Block 188) (tsh : Tsh) (s : State), parseTsh p = some tsh → tsh.pid ≠ s.asm.targetPid →
    exec (.pkt p) s = .next { s with tsh := tsh, af := decodedAf p tsh, result := .unexpectedPid }

/-- 60_exceptions.md R279: a counter other than `(lastCC + 1) mod 16` on the target PID while Assembling gives StreamPacketLost:
Idle, BUF emptied, `lastCC` and the header kept; and nothing else gives StreamPacketLost. -/
def Obligations.CounterMismatchDropsAssembly : Prop :=
  ∀ (p : Block 188) (s : State),
    (∀ tsh, parseTsh p = some tsh → s.asm.Misses tsh.pid tsh.continuityCounter →
      exec (.pkt p) s = .next { s with
        tsh := tsh, af := decodedAf p tsh, result := .streamPacketLost
        asm := { s.asm with started := false, buffer := [], bytesAccumulated := 0 } }) ∧
    (∀ t, exec (.pkt p) s = .next t → t.result = .streamPacketLost →
      ∃ tsh, parseTsh p = some tsh ∧ s.asm.Misses tsh.pid tsh.continuityCounter)

/-- 60_exceptions.md R281: UnexpectedPid has exactly four causes: another PID; Idle and a continuation; Assembling and a
continuation without payload; Idle and a start whose header does not fit. -/
def Obligations.UnexpectedPidHasFourCauses : Prop :=
  ∀ (p : Block 188) (s t : State), exec (.pkt p) s = .next t →
    (t.result = .unexpectedPid ↔ ∃ tsh, parseTsh p = some tsh ∧
      (tsh.pid ≠ s.asm.targetPid ∨
        (s.asm.Expects tsh.pid tsh.continuityCounter ∧
          ((s.asm.started = false ∧ tsh.payloadUnitStart = 0) ∨
            (s.asm.started = true ∧ tsh.payloadUnitStart = 0 ∧ ¬ CarriesPayload tsh) ∨
            (s.asm.started = false ∧ tsh.payloadUnitStart = 1 ∧ 183 ≤ offsetOf p tsh)))))

/-- 43_pes_assembler.md R195: a start whose header fits opens an assembly with the payload as BUF, in either state, and runs no
completion check. -/
def Obligations.StartOpensAssembly : Prop :=
  ∀ (p : Block 188) (tsh : Tsh) (s : State), parseTsh p = some tsh →
    s.asm.Expects tsh.pid tsh.continuityCounter → tsh.payloadUnitStart = 1 → offsetOf p tsh ≤ 182 →
    188 - offsetOf p tsh ≤ s.cfg.bufCap →
    ∃ h buf, parsePesHeader (p.data.drop (offsetOf p tsh)) = some h ∧
      (∀ x, Memory.read buf x = p.data[offsetOf p tsh + x]?) ∧
      exec (.pkt p) s = .next { s with
        tsh := tsh, af := decodedAf p tsh, result := .assemblingStarted
        asm := { s.asm with
          lastCC := some tsh.continuityCounter, started := true, header := h, buffer := buf
          bytesAccumulated := 188 - offsetOf p tsh } }

/-- 43_pes_assembler.md R196: a start with fewer than six bytes left goes Idle with BUF empty and the header kept;
AssemblingFinished if it was Assembling, UnexpectedPid if Idle. -/
def Obligations.StartWithoutHeaderGoesIdle : Prop :=
  ∀ (p : Block 188) (tsh : Tsh) (s : State), parseTsh p = some tsh →
    s.asm.Expects tsh.pid tsh.continuityCounter → tsh.payloadUnitStart = 1 → 183 ≤ offsetOf p tsh →
    exec (.pkt p) s = .next { s with
      tsh := tsh, af := decodedAf p tsh
      result := if s.asm.started = true then .assemblingFinished else .unexpectedPid
      asm := { s.asm with
        lastCC := some tsh.continuityCounter, started := false, buffer := [], bytesAccumulated := 0 } }

/-- 43_pes_assembler.md R198: a continuation while Idle or without payload only records the counter. -/
def Obligations.NothingToDoRecordsCounterOnly : Prop :=
  ∀ (p : Block 188) (tsh : Tsh) (s : State), parseTsh p = some tsh →
    s.asm.Expects tsh.pid tsh.continuityCounter → tsh.payloadUnitStart = 0 →
    (s.asm.started = false ∨ ¬ CarriesPayload tsh) →
    exec (.pkt p) s = .next { s with
      tsh := tsh, af := decodedAf p tsh, result := .unexpectedPid
      asm := { s.asm with lastCC := some tsh.continuityCounter } }

/-- 43_pes_assembler.md R199, R200, R201: a continuation with payload while Assembling appends the bytes from `offset` to the
packet end, finishes when the declared total is reached, and otherwise goes on. -/
def Obligations.ContinuationAppendsAndCompletes : Prop :=
  ∀ (p : Block 188) (tsh : Tsh) (s : State), parseTsh p = some tsh →
    s.asm.Expects tsh.pid tsh.continuityCounter → tsh.payloadUnitStart = 0 → s.asm.started = true →
    CarriesPayload tsh →
    s.asm.bytesAccumulated + (188 - offsetOf p tsh) ≤ s.cfg.bufCap →
    ∃ buf done, (done = true ↔ s.asm.Reaches (188 - offsetOf p tsh)) ∧
      (∀ x, Memory.read buf x =
        if s.asm.bytesAccumulated ≤ x ∧ x < s.asm.bytesAccumulated + (188 - offsetOf p tsh)
        then p.data[offsetOf p tsh + (x - s.asm.bytesAccumulated)]? else Memory.read s.asm.buffer x) ∧
      exec (.pkt p) s = .next { s with
        tsh := tsh, af := decodedAf p tsh
        result := if done then .assemblingFinished else .assemblingContinue
        asm := { s.asm with
          lastCC := some tsh.continuityCounter, started := !done, buffer := buf
          bytesAccumulated := s.asm.bytesAccumulated + (188 - offsetOf p tsh) } }

/-- 60_exceptions.md R283, 43_pes_assembler.md R187: an append beyond BUF_CAP is the fault BufferOverflow, on a start and on a
continuation. -/
def Obligations.AppendBeyondCapacityFaults : Prop :=
  ∀ (p : Block 188) (tsh : Tsh) (s : State), parseTsh p = some tsh →
    s.asm.Expects tsh.pid tsh.continuityCounter →
    (tsh.payloadUnitStart = 1 → offsetOf p tsh ≤ 182 → s.cfg.bufCap < 188 - offsetOf p tsh →
      exec (.pkt p) s = .fault .bufferOverflow) ∧
    (tsh.payloadUnitStart = 0 → s.asm.started = true → CarriesPayload tsh →
      s.cfg.bufCap < s.asm.bytesAccumulated + (188 - offsetOf p tsh) →
      exec (.pkt p) s = .fault .bufferOverflow)

/-- 43_pes_assembler.md R205: in a state with a known counter while Assembling, exactly one row of the table applies. -/
def Obligations.TransitionRowsAreExclusiveAndComplete : Prop :=
  ∀ (p : Block 188) (tsh : Tsh) (a : Asm), (a.started = true → a.lastCC ≠ none) → ∃! n, rowGuard p tsh a n

/-- 43_pes_assembler.md R205, R185, R245: PES.ABSORB on its own, with TSH and AF decoded from the packet, answers the state and
outcome of whichever row of the table applies, and changes ASM, BUF and RESULT only. -/
def Obligations.AbsorbFollowsTransitionTable : Prop :=
  ∀ (p : Block 188) (s : State) (n : Nat), parseTsh p = some s.tsh →
    (decodedAf p s.tsh ≠ none → s.af = decodedAf p s.tsh) →
    RoomFor s.cfg.bufCap p s.tsh s.asm → rowGuard p s.tsh s.asm n →
    ∃ t, exec (.pesAbsorb p) s = .next t ∧ rowEffect p s.tsh s.asm t.asm t.result n ∧
      t = { s with asm := t.asm, result := t.result }

/-- 44_packet_step.md R245, 93_implementation_defined.md U10: PES.ABSORB with TSH or AF not decoded from the packet is outside the
spec, and the model refuses it by name (log entry 7). -/
def Obligations.AbsorbRefusesForeignOperands : Prop :=
  ∀ (p : Block 188) (s : State),
    (parseTsh p ≠ some s.tsh ∨ (decodedAf p s.tsh ≠ none ∧ s.af ≠ decodedAf p s.tsh)) →
    exec (.pesAbsorb p) s = .refused .operandsNotFromPacket

/-! ### The packet classes -/

/-- 43_pes_assembler.md R210, R212: PKT.CONT.AFC0 and PKT.CONT.AFC2, neither filtered nor lost, record the counter and return
UnexpectedPid in both states; AF is `none` or the decoded field. -/
def Obligations.ContinuationClassesWithoutPayload : Prop :=
  ∀ (h : HeaderFields) (body : Block 184) (s : State), s.asm.Expects h.pid h.continuityCounter →
    exec (.pktContAfc0 h body) s = .next { s with
      tsh := ⟨0x47, h.errorIndicator, 0, h.priority, h.pid, h.scramblingControl, 0, h.continuityCounter⟩
      af := none, result := .unexpectedPid
      asm := { s.asm with lastCC := some h.continuityCounter } } ∧
    exec (.pktContAfc2 h body) s = .next { s with
      tsh := ⟨0x47, h.errorIndicator, 0, h.priority, h.pid, h.scramblingControl, 2, h.continuityCounter⟩
      af := some (parseAf (body.byte 0) (body.byte 1)), result := .unexpectedPid
      asm := { s.asm with lastCC := some h.continuityCounter } }

/-- 43_pes_assembler.md R211: PKT.CONT.AFC1, neither filtered nor lost: UnexpectedPid while Idle; while Assembling the 184 bytes
are appended and the declared total decides the outcome. -/
def Obligations.ContinuationClassWithPlainPayload : Prop :=
  ∀ (h : HeaderFields) (body : Block 184) (s : State), s.asm.Expects h.pid h.continuityCounter →
    let tsh : Tsh := ⟨0x47, h.errorIndicator, 0, h.priority, h.pid, h.scramblingControl, 1, h.continuityCounter⟩
    (s.asm.started = false → exec (.pktContAfc1 h body) s = .next { s with
      tsh := tsh, af := none, result := .unexpectedPid
      asm := { s.asm with lastCC := some h.continuityCounter } }) ∧
    (s.asm.started = true → s.asm.bytesAccumulated + 184 ≤ s.cfg.bufCap →
      ∃ buf done, (done = true ↔ s.asm.Reaches 184) ∧
        (∀ x, Memory.read buf x =
          if s.asm.bytesAccumulated ≤ x ∧ x < s.asm.bytesAccumulated + 184
          then body.data[x - s.asm.bytesAccumulated]? else Memory.read s.asm.buffer x) ∧
        exec (.pktContAfc1 h body) s = .next { s with
          tsh := tsh, af := none, result := if done then .assemblingFinished else .assemblingContinue
          asm := { s.asm with
            lastCC := some h.continuityCounter, started := !done, buffer := buf
            bytesAccumulated := s.asm.bytesAccumulated + 184 } })

/-- 43_pes_assembler.md R213: PKT.CONT.AFC3, neither filtered nor lost: as R211 with the `183 - AF.length` bytes from offset
`5 + AF.length`, none when `AF.length >= 183`. -/
def Obligations.ContinuationClassBehindAdaptation : Prop :=
  ∀ (h : HeaderFields) (body : Block 184) (s : State), s.asm.Expects h.pid h.continuityCounter →
    let tsh : Tsh := ⟨0x47, h.errorIndicator, 0, h.priority, h.pid, h.scramblingControl, 3, h.continuityCounter⟩
    let af : Af := parseAf (body.byte 0) (body.byte 1)
    let count : Nat := 183 - (body.byte 0).toNat
    (s.asm.started = false → exec (.pktContAfc3 h body) s = .next { s with
      tsh := tsh, af := some af, result := .unexpectedPid
      asm := { s.asm with lastCC := some h.continuityCounter } }) ∧
    (s.asm.started = true → s.asm.bytesAccumulated + count ≤ s.cfg.bufCap →
      ∃ buf done, (done = true ↔ s.asm.Reaches count) ∧
        (∀ x, Memory.read buf x =
          if s.asm.bytesAccumulated ≤ x ∧ x < s.asm.bytesAccumulated + count
          then body.data[1 + (body.byte 0).toNat + (x - s.asm.bytesAccumulated)]?
          else Memory.read s.asm.buffer x) ∧
        exec (.pktContAfc3 h body) s = .next { s with
          tsh := tsh, af := some af, result := if done then .assemblingFinished else .assemblingContinue
          asm := { s.asm with
            lastCC := some h.continuityCounter, started := !done, buffer := buf
            bytesAccumulated := s.asm.bytesAccumulated + count } })

/-- 43_pes_assembler.md R214, R215: PKT.START.AFC0 and PKT.START.AFC1, neither filtered nor lost: the header comes from PKT
addresses 4 to 9, BUF becomes addresses 4 to 187, Assembling. -/
def Obligations.PlainStartClassesOpenAssembly : Prop :=
  ∀ (h : HeaderFields) (body : Block 184) (s : State), s.asm.Expects h.pid h.continuityCounter →
    184 ≤ s.cfg.bufCap →
    ∃ hd buf,
      hd.startCodePrefix.toNat
        = (body.byte 0).toNat * 65536 + (body.byte 1).toNat * 256 + (body.byte 2).toNat ∧
      hd.streamId = body.byte 3 ∧
      hd.packetLength.toNat = (body.byte 4).toNat * 256 + (body.byte 5).toNat ∧
      (∀ x, Memory.read buf x = body.data[x]?) ∧
      (∀ asm, asm = { s.asm with
          lastCC := some h.continuityCounter, started := true, header := hd, buffer := buf
          bytesAccumulated := 184 } →
        exec (.pktStartAfc0 h body) s = .next { s with
          tsh := ⟨0x47, h.errorIndicator, 1, h.priority, h.pid, h.scramblingControl, 0, h.continuityCounter⟩
          af := none, result := .assemblingStarted, asm := asm } ∧
        exec (.pktStartAfc1 h body) s = .next { s with
          tsh := ⟨0x47, h.errorIndicator, 1, h.priority, h.pid, h.scramblingControl, 1, h.continuityCounter⟩
          af := none, result := .assemblingStarted, asm := asm })

/-- 43_pes_assembler.md R216, R217: PKT.START.AFC2 and PKT.START.AFC3, neither filtered nor lost: the start succeeds if and only if
`AF.length <= 177`. -/
def Obligations.AdaptedStartClasses : Prop :=
  ∀ (h : HeaderFields) (body : Block 184) (s : State), s.asm.Expects h.pid h.continuityCounter →
    let af : Af := parseAf (body.byte 0) (body.byte 1)
    let len : Nat := (body.byte 0).toNat
    let tsh : BitVec 2 → Tsh := fun c =>
      ⟨0x47, h.errorIndicator, 1, h.priority, h.pid, h.scramblingControl, c, h.continuityCounter⟩
    (len ≤ 177 → 183 - len ≤ s.cfg.bufCap →
      ∃ hd buf, parsePesHeader (body.data.drop (1 + len)) = some hd ∧
        (∀ x, Memory.read buf x = body.data[1 + len + x]?) ∧
        (∀ asm, asm = { s.asm with
            lastCC := some h.continuityCounter, started := true, header := hd, buffer := buf
            bytesAccumulated := 183 - len } →
          exec (.pktStartAfc2 h body) s
            = .next { s with tsh := tsh 2, af := some af, result := .assemblingStarted, asm := asm } ∧
          exec (.pktStartAfc3 h body) s
            = .next { s with tsh := tsh 3, af := some af, result := .assemblingStarted, asm := asm })) ∧
    (178 ≤ len → ∀ asm r,
      asm = { s.asm with
        lastCC := some h.continuityCounter, started := false, buffer := [], bytesAccumulated := 0 } →
      r = (if s.asm.started = true then Result.assemblingFinished else Result.unexpectedPid) →
      exec (.pktStartAfc2 h body) s
        = .next { s with tsh := tsh 2, af := some af, result := r, asm := asm } ∧
      exec (.pktStartAfc3 h body) s
        = .next { s with tsh := tsh 3, af := some af, result := r, asm := asm })

/-- 43_pes_assembler.md section 7, R189, R190: in each of the eight classes (`classOf u c` is PKT.CONT.AFC`c` for `u = 0` and
PKT.START.AFC`c` for `u = 1`) another PID leaves ASM and BUF, and a mismatch while Assembling drops the assembly. -/
def Obligations.ClassesFilterAndDetectLoss : Prop :=
  ∀ (u : BitVec 1) (c : BitVec 2) (h : HeaderFields) (body : Block 184) (s : State),
    let tsh : Tsh := ⟨0x47, h.errorIndicator, u, h.priority, h.pid, h.scramblingControl, c, h.continuityCounter⟩
    let af : Option Af := if c = 2 ∨ c = 3 then some (parseAf (body.byte 0) (body.byte 1)) else none
    (h.pid ≠ s.asm.targetPid →
      exec (classOf u c h body) s = .next { s with tsh := tsh, af := af, result := .unexpectedPid }) ∧
    (s.asm.Misses h.pid h.continuityCounter →
      exec (classOf u c h body) s = .next { s with
        tsh := tsh, af := af, result := .streamPacketLost
        asm := { s.asm with started := false, buffer := [], bytesAccumulated := 0 } })

/-- 30_encoding.md R110, R112, 44_packet_step.md R240: the class a packet's header word selects does what the composite PKT does
on the packet, in every state. -/
def Obligations.ClassAgreesWithComposite : Prop :=
  ∀ (p : Block 188) (i : Instr) (s : State), decode (.packet p.data) = .ok i → exec i s = exec (.pkt p) s

/-- 44_packet_step.md R240, R243, R245: TSH.PARSE, then AF.PARSE if the header announces an adaptation field, then PES.ABSORB, each
on its own, end like the composite PKT: the same fault, or the same TSH, ASM, BUF and RESULT, and the same AF where there is
an adaptation field. -/
def Obligations.CompositeIsDecodersThenAbsorb : Prop :=
  ∀ (p : Block 188) (tsh : Tsh) (s s1 s2 : State), parseTsh p = some tsh →
    exec (.tshParse p) s = .next s1 →
    (decodedAf p tsh ≠ none → exec (.afParse p tsh.adaptationFieldControl) s1 = .next s2) →
    (decodedAf p tsh = none → s2 = s1) →
    (∃ t u, exec (.pesAbsorb p) s2 = .next t ∧ exec (.pkt p) s = .next u ∧
      t.tsh = u.tsh ∧ t.asm = u.asm ∧ t.result = u.result ∧ (decodedAf p tsh ≠ none → t.af = u.af)) ∨
    (∃ f, exec (.pesAbsorb p) s2 = .fault f ∧ exec (.pkt p) s = .fault f)

/-! ### RESET -/

/-- 44_packet_step.md R246: RESET(pid) gives every register the listed value. That BUF_CAP and the host's side stay as they are is
the model's reading (DEDUCED, log entry 17). -/
def Obligations.ResetSetsEveryRegister : Prop :=
  ∀ (pid : BitVec 13) (s : State),
    exec (.reset pid) s = .next { s with
      tsh := ⟨0, 0, 0, 0, 0, 0, 0, 0⟩, af := none, result := .noResult
      asm := {
        targetPid := pid, buffer := [], bytesAccumulated := 0, lastCC := none, started := false
        header := ⟨0, 0, 0⟩ } }

/-- 44_packet_step.md R247: after RESET no earlier packet influences a later result: two machines with the same capacity
that are reset to the same PID answer the same to the same packets. -/
def Obligations.ResetForgetsThePast : Prop :=
  ∀ (pid : BitVec 13) (s1 s2 t1 t2 : State) (ps : List (Block 188)), s1.cfg = s2.cfg →
    exec (.reset pid) s1 = .next t1 → exec (.reset pid) s2 = .next t2 →
    (packetRun ps t1).map (fun x => (x.1.tsh, x.1.af, x.1.result, x.1.asm, x.2))
      = (packetRun ps t2).map (fun x => (x.1.tsh, x.1.af, x.1.result, x.1.asm, x.2))

/-- 10_state.md R33, 44_packet_step.md R248: no operation but RESET changes `targetPid`, and none changes BUF_CAP. -/
def Obligations.OnlyResetChangesTargetPid : Prop :=
  ∀ (i : Instr) (s t : State), exec i s = .next t →
    t.cfg = s.cfg ∧ ((∀ pid, i ≠ .reset pid) → t.asm.targetPid = s.asm.targetPid)

/-- 43_pes_assembler.md R188: Idle becomes Assembling only by AssemblingStarted; Assembling becomes Idle only by StreamPacketLost,
AssemblingFinished or RESET; and those two results always leave the assembler Idle. -/
def Obligations.OnlyTheseEventsChangeTheState : Prop :=
  ∀ (i : Instr) (s t : State), exec i s = .next t →
    (s.asm.started = false → t.asm.started = true → t.result = .assemblingStarted) ∧
    (s.asm.started = true → t.asm.started = false →
      t.result = .streamPacketLost ∨ t.result = .assemblingFinished ∨ ∃ pid, i = .reset pid) ∧
    (∀ p, i = .pkt p → t.result = .streamPacketLost ∨ t.result = .assemblingFinished → t.asm.started = false) ∧
    (∀ p, i = .pkt p → t.result = .assemblingStarted ∨ t.result = .assemblingContinue → t.asm.started = true)

/-- 10_state.md R23, R32, 44_packet_step.md R245: TSH.PARSE, AF.PARSE, PESH.PARSE and ES.STRIP never touch ASM or BUF; AF.PARSE,
PESH.PARSE, ES.STRIP and PES.ABSORB never touch TSH. -/
def Obligations.RegisterGroupsHaveTheirWriters : Prop :=
  ∀ (p : Block 188) (afc : BitVec 2) (bytes : List Byte) (s t : State),
    ((exec (.tshParse p) s = .next t ∨ exec (.afParse p afc) s = .next t ∨ exec (.peshParse bytes) s = .next t ∨
      exec .esStrip s = .next t) → t.asm = s.asm) ∧
    ((exec (.afParse p afc) s = .next t ∨ exec (.peshParse bytes) s = .next t ∨ exec .esStrip s = .next t ∨
      exec (.pesAbsorb p) s = .next t) → t.tsh = s.tsh)

/-! ### ES.STRIP and the read port -/

/-- 45_host_extraction.md R260, R261, R263: on a buffer of six bytes or more whose header fits, ES.STRIP returns the bytes from
the header length to the end; no register of CORE changes. Where the chunk is kept is the model's (log entry 6); so is that this
holds outside the window of R264 too (DESIGN CHOICE, log entry 18). -/
def Obligations.EsStripReturnsBytesAfterHeader : Prop :=
  ∀ (s : State) (streamId : Byte) (headerLength : Nat), s.asm.BufferExact → 6 ≤ s.asm.bytesAccumulated →
    Memory.read s.asm.buffer 3 = some streamId →
    (((0xC0 ≤ streamId.toNat ∧ streamId.toNat ≤ 0xDF) ∨ streamId = 0xBD#8) → 9 ≤ s.asm.bytesAccumulated →
      ∃ dataLength, Memory.read s.asm.buffer 8 = some dataLength ∧ headerLength = 9 + dataLength.toNat) →
    (¬ ((((0xC0 ≤ streamId.toNat ∧ streamId.toNat ≤ 0xDF) ∨ streamId = 0xBD#8)) ∧ 9 ≤ s.asm.bytesAccumulated) →
      headerLength = 6) →
    (headerLength ≤ s.asm.bytesAccumulated →
      ∃ bytes, bytes.length = s.asm.bytesAccumulated - headerLength ∧
        (∀ k, k < bytes.length → bytes[k]? = Memory.read s.asm.buffer (headerLength + k)) ∧
        exec .esStrip s = .next { s with returned := .esChunk bytes, chunks := s.chunks ++ [bytes] }) ∧
    (s.asm.bytesAccumulated < headerLength →
      exec .esStrip s = .next { s with returned := .headerBeyondBuffer })

/-- 45_host_extraction.md R263: a buffer of fewer than six bytes gives NoPesHeader and nothing is extracted. Outside the window of
R264 that ES.STRIP runs at all is the model's (DESIGN CHOICE, log entry 18). -/
def Obligations.EsStripNeedsSixBytes : Prop :=
  ∀ s : State, s.asm.bytesAccumulated < 6 → exec .esStrip s = .next { s with returned := .noPesHeader }

/-- 44_packet_step.md R253: the read port gives the byte at any address below the length and refuses every other. -/
def Obligations.ReadPortEndsAtLength : Prop :=
  ∀ (s : State) (x : Nat), s.asm.BufferExact →
    (x < s.asm.bytesAccumulated → ∃ b, bufRead s x = .ok b ∧ Memory.read s.asm.buffer x = some b) ∧
    (s.asm.bytesAccumulated ≤ x → bufRead s x = .error .bufReadBeyondLength)

/-! ### The step -/

/-- 00_scope.md R19, 20_memory.md R69: a step takes the host's next request and is `exec` of the operation it decodes to, with
the request taken and, for a block of the stream, the stream moved past its 188 bytes. -/
def Obligations.StepRunsDecodedRequest : Prop :=
  ∀ (s : State) (rest : List Request) (i : Instr),
    (∀ c, s.requests = .issue c :: rest → decode c = .ok i → step s = exec i { s with requests := rest }) ∧
    (s.requests = .feed :: rest → 188 ≤ s.stream.length → decode (.packet (s.stream.take 188)) = .ok i →
      step s = exec i { s with
        requests := rest, stream := s.stream.drop 188, streamPos := s.streamPos + 188 })

/-- 44_packet_step.md R250, R251: feeding moves the stream by 188 bytes whatever the packet's result, and a stream of fewer than
188 bytes presents nothing (the refusal's name is the model's, log entry 9). -/
def Obligations.FramingIsByCountingAlone : Prop :=
  ∀ (s : State) (rest : List Request), s.requests = .feed :: rest →
    (188 ≤ s.stream.length → ∀ t, step s = .next t →
      t.stream = s.stream.drop 188 ∧ t.streamPos = s.streamPos + 188 ∧ t.requests = rest) ∧
    (s.stream.length < 188 → step s = .refused .endOfStream)

/-- 00_scope.md R19, 44_packet_step.md R250: feeding whole 188-byte blocks of the stream, one request each, is the fold of PKT over
those blocks: the same registers, ASM, BUF and results, and the machine stops where the fold stops. The fields requests, stream and
streamPos are the model's way to hold the host's input (DESIGN CHOICE, log entry 1). -/
def Obligations.FeedingIsTheFoldOfPackets : Prop :=
  ∀ (blocks : List (Block 188)) (rest : List Request) (tail : List Byte) (s : State),
    s.requests = List.replicate blocks.length .feed ++ rest → s.stream = blocks.flatMap Block.data ++ tail →
    stepRun blocks.length s = (packetRun blocks s).map fun x =>
      { x.1 with requests := rest, stream := tail, streamPos := s.streamPos + 188 * blocks.length }

/-- 44_packet_step.md R251, 93_implementation_defined.md U7: a command that presents fewer than 188 bytes is refused by name. -/
def Obligations.ShortBlocksAreRefused : Prop :=
  ∀ (s : State) (rest : List Request) (block : List Byte) (afc : BitVec 2) (c : Command), block.length < 188 →
    c ∈ [.packet block, .pkt block, .tshParse block, .afParse block afc, .pesAbsorb block] →
    s.requests = .issue c :: rest → step s = .refused .truncatedBlock

/-- 10_state.md R39, R40: the state after reset satisfies the invariants. -/
def Obligations.ResetStateMeetsInvariant : Prop := State.reset.Inv

/-- 10_state.md R39, R40, 43_pes_assembler.md R204, 10_state.md R24, R35: every step keeps the invariants: BUF in canonical form with
its length, below its capacity and 2^32, the counter known while Assembling, the header register that of BUF's first six
bytes, a buffer held while Idle complete, the bound on bounded packets, the header registers, and the stream position. -/
def Obligations.StepKeepsInvariant : Prop :=
  ∀ s t : State, s.Inv → step s = .next t → t.Inv

/-! ### Whole-machine rules -/

/-- 44_packet_step.md R244: from every state of a run and for every packet, PKT answers a next state or the fault
BufferOverflow, never anything else. -/
def Obligations.PktIsTotal : Prop :=
  ∀ (p : Block 188) (s : State), s.Inv →
    (∃ t, exec (.pkt p) s = .next t) ∨ exec (.pkt p) s = .fault .bufferOverflow

/-- 00_scope.md R10, 43_pes_assembler.md R204: with BUF_CAP of 65724 or more no packet overflows unless it continues a PES packet of
declared length zero. -/
def Obligations.BoundedPacketsNeverOverflow : Prop :=
  ∀ (p : Block 188) (s : State), s.Inv → 65724 ≤ s.cfg.bufCap →
    (s.asm.started = true → s.asm.header.packetLength ≠ 0) → ∃ t, exec (.pkt p) s = .next t

/-- 43_pes_assembler.md R208, R200: a PES packet of declared length zero is never finished by a continuation. -/
def Obligations.UnboundedPacketsNeverFinishByLength : Prop :=
  ∀ (p : Block 188) (tsh : Tsh) (s t : State), parseTsh p = some tsh → tsh.payloadUnitStart = 0 →
    s.asm.header.packetLength = 0 → exec (.pkt p) s = .next t → t.result ≠ .assemblingFinished

/-- 43_pes_assembler.md R202: a finished buffer survives every foreign-PID packet and every target-PID continuation. -/
def Obligations.FinishedBufferSurvivesUntilNextStart : Prop :=
  ∀ (p : Block 188) (s t : State), s.asm.started = false →
    (∀ tsh, parseTsh p = some tsh → tsh.pid = s.asm.targetPid → tsh.payloadUnitStart = 0) →
    exec (.pkt p) s = .next t →
    t.asm.buffer = s.asm.buffer ∧ t.asm.bytesAccumulated = s.asm.bytesAccumulated ∧ t.asm.started = false

/-- 30_encoding.md R118: errorIndicator, priority and scramblingControl change nothing but the TSH registers: two packets that
differ in those bits only end alike. -/
def Obligations.IgnoredHeaderBitsDoNotMatter : Prop :=
  ∀ (p q : Block 188) (s : State), p.byte 0 = q.byte 0 → p.byte 1 &&& 0x5F#8 = q.byte 1 &&& 0x5F#8 →
    p.byte 2 = q.byte 2 → p.byte 3 &&& 0x3F#8 = q.byte 3 &&& 0x3F#8 → p.data.drop 4 = q.data.drop 4 →
    (∃ t u, exec (.pkt p) s = .next t ∧ exec (.pkt q) s = .next u ∧ u = { t with tsh := u.tsh }) ∨
    (∃ f, exec (.pkt p) s = .fault f ∧ exec (.pkt q) s = .fault f)

/-- 41_adaptation_field.md R152, 30_encoding.md R120: the flag octet of an adaptation field of length 1 or more changes nothing but
AF: two packets that differ in it only end alike. -/
def Obligations.AdaptationFlagsDoNotMatter : Prop :=
  ∀ (p q : Block 188) (tsh : Tsh) (s : State), parseTsh p = some tsh → decodedAf p tsh ≠ none →
    p.byte 4 ≠ 0 → p.data.take 5 = q.data.take 5 → p.data.drop 6 = q.data.drop 6 →
    (∃ t u, exec (.pkt p) s = .next t ∧ exec (.pkt q) s = .next u ∧ u = { t with af := u.af }) ∨
    (∃ f, exec (.pkt p) s = .fault f ∧ exec (.pkt q) s = .fault f)

/-- 43_pes_assembler.md R206: the counter held while Idle is never seen: two Idle states that differ in `lastCC` only give the
same results, and the same assembler but for `lastCC`, on every packet sequence. -/
def Obligations.IdleCounterIsUnobservable : Prop :=
  ∀ (s : State) (cc : Option (BitVec 4)) (ps : List (Block 188)), s.asm.started = false →
    (packetRun ps { s with asm := { s.asm with lastCC := cc } }).map
        (fun x => (({ x.1.asm with lastCC := none } : Asm), x.2))
      = (packetRun ps s).map (fun x => (({ x.1.asm with lastCC := none } : Asm), x.2))

/-- 43_pes_assembler.md R218: a valid-sync packet of another PID leaves every ASM register and BUF and returns UnexpectedPid; and
deleting all such packets from a sequence changes neither the results of the remaining packets nor the final ASM and BUF. -/
def Obligations.ForeignPacketsCanBeDeleted : Prop :=
  (∀ (p : Block 188) (s : State), foreignPacket s.asm.targetPid p = true →
    ∃ t, exec (.pkt p) s = .next t ∧ t.asm = s.asm ∧ t.result = .unexpectedPid) ∧
  ∀ (ps : List (Block 188)) (s : State),
    (packetRun (ps.filter fun p => !foreignPacket s.asm.targetPid p) s).map (fun x => (x.1.asm, x.2))
      = (packetRun ps s).map (fun x =>
          (x.1.asm, ((ps.zip x.2).filter fun y => !foreignPacket s.asm.targetPid y.1).map Prod.snd))

/-- 43_pes_assembler.md R190, 95_test_vectors.md S3: counters that go up by one modulo 16 on the target PID never give
StreamPacketLost. -/
def Obligations.ConsecutiveCountersAreNeverLost : Prop :=
  ∀ (ps : List (Block 188)) (c : Nat) (s t : State) (rs : List Result), InSequence s.asm.targetPid c ps →
    (s.asm.started = true → ∃ last, s.asm.lastCC = some last ∧ c % 16 = (last.toNat + 1) % 16) →
    packetRun ps s = some (t, rs) → Result.streamPacketLost ∉ rs

/-- 43_pes_assembler.md R209: a PES packet of declared length `L`, not 0, split exactly over N packets, N at least 2, gives one
AssemblingStarted, N - 2 AssemblingContinue and one AssemblingFinished, and BUF is the PES packet byte for byte. -/
def Obligations.SplitPesPacketIsReassembled : Prop :=
  ∀ (first : Block 188) (rest : List (Block 188)) (tsh : Tsh) (h : PesHeader) (c : Nat) (s : State),
    parseTsh first = some tsh → tsh.payloadUnitStart = 1 →
    s.asm.Expects tsh.pid tsh.continuityCounter →
    InSequence s.asm.targetPid c (first :: rest) →
    (∀ p ∈ rest, ∀ tsh', parseTsh p = some tsh' → tsh'.payloadUnitStart = 0 ∧ CarriesPayload tsh') →
    rest ≠ [] →
    parsePesHeader (payloadOf first) = some h → h.packetLength ≠ 0 →
    ((first :: rest).flatMap payloadOf).length = h.packetLength.toNat + 6 →
    ((first :: rest).dropLast.flatMap payloadOf).length < h.packetLength.toNat + 6 →
    h.packetLength.toNat + 6 ≤ s.cfg.bufCap →
    ∃ t, packetRun (first :: rest) s
        = some (t, .assemblingStarted ::
            (List.replicate (rest.length - 1) .assemblingContinue ++ [.assemblingFinished])) ∧
      t.asm.started = false ∧ t.asm.bytesAccumulated = h.packetLength.toNat + 6 ∧
      Memory.readBytes t.asm.buffer 0 (h.packetLength.toNat + 6)
        = some ((first :: rest).flatMap payloadOf)

/-- 95_test_vectors.md S7, 45_host_extraction.md R262: a split PES packet of a listed stream id, with nine bytes or more and a header
length of `9 + n` that it holds, is extracted by ES.STRIP from byte `9 + n` to its end (kept as in log entry 6). -/
def Obligations.SplitPesPacketIsExtracted : Prop :=
  ∀ (first : Block 188) (rest : List (Block 188)) (tsh : Tsh) (h : PesHeader) (n : Byte) (c : Nat) (s : State),
    parseTsh first = some tsh → tsh.payloadUnitStart = 1 →
    s.asm.Expects tsh.pid tsh.continuityCounter →
    InSequence s.asm.targetPid c (first :: rest) →
    (∀ p ∈ rest, ∀ tsh', parseTsh p = some tsh' → tsh'.payloadUnitStart = 0 ∧ CarriesPayload tsh') →
    rest ≠ [] →
    parsePesHeader (payloadOf first) = some h → h.packetLength ≠ 0 →
    ((first :: rest).flatMap payloadOf).length = h.packetLength.toNat + 6 →
    ((first :: rest).dropLast.flatMap payloadOf).length < h.packetLength.toNat + 6 →
    h.packetLength.toNat + 6 ≤ s.cfg.bufCap →
    ((0xC0 ≤ h.streamId.toNat ∧ h.streamId.toNat ≤ 0xDF) ∨ h.streamId = 0xBD#8) →
    ((first :: rest).flatMap payloadOf)[8]? = some n → 9 + n.toNat ≤ h.packetLength.toNat + 6 →
    ∃ t rs u, packetRun (first :: rest) s = some (t, rs) ∧ exec .esStrip t = .next u ∧
      u.chunks = s.chunks ++ [((first :: rest).flatMap payloadOf).drop (9 + n.toNat)]
end

