-- ==== Sys2Proof/Laws/State.lean ====
section
/-! SUPPORT. One lemma per field per update of State and of the assembler's registers, so that no proof unfolds a
record update. -/

namespace Sys2Proof.Machine

@[simp] theorem State.present_tsh (s : State) (tsh : Tsh) (af : Option Af) : (s.present tsh af).tsh = tsh := rfl
@[simp] theorem State.present_af (s : State) (tsh : Tsh) (af : Option Af) : (s.present tsh af).af = af := rfl
@[simp] theorem State.present_result (s : State) (tsh : Tsh) (af : Option Af) : (s.present tsh af).result = s.result := rfl
@[simp] theorem State.present_asm (s : State) (tsh : Tsh) (af : Option Af) : (s.present tsh af).asm = s.asm := rfl
@[simp] theorem State.present_cfg (s : State) (tsh : Tsh) (af : Option Af) : (s.present tsh af).cfg = s.cfg := rfl
@[simp] theorem State.present_requests (s : State) (tsh : Tsh) (af : Option Af) : (s.present tsh af).requests = s.requests := rfl
@[simp] theorem State.present_stream (s : State) (tsh : Tsh) (af : Option Af) : (s.present tsh af).stream = s.stream := rfl
@[simp] theorem State.present_streamPos (s : State) (tsh : Tsh) (af : Option Af) : (s.present tsh af).streamPos = s.streamPos := rfl
@[simp] theorem State.present_returned (s : State) (tsh : Tsh) (af : Option Af) : (s.present tsh af).returned = s.returned := rfl
@[simp] theorem State.present_chunks (s : State) (tsh : Tsh) (af : Option Af) : (s.present tsh af).chunks = s.chunks := rfl
@[simp] theorem State.present_freeCount (s : State) (tsh : Tsh) (af : Option Af) : (s.present tsh af).freeCount = s.freeCount := rfl

@[simp] theorem State.setTsh_tsh (s : State) (tsh : Tsh) : (s.setTsh tsh).tsh = tsh := rfl
@[simp] theorem State.setTsh_af (s : State) (tsh : Tsh) : (s.setTsh tsh).af = s.af := rfl
@[simp] theorem State.setTsh_result (s : State) (tsh : Tsh) : (s.setTsh tsh).result = s.result := rfl
@[simp] theorem State.setTsh_asm (s : State) (tsh : Tsh) : (s.setTsh tsh).asm = s.asm := rfl
@[simp] theorem State.setTsh_cfg (s : State) (tsh : Tsh) : (s.setTsh tsh).cfg = s.cfg := rfl
@[simp] theorem State.setTsh_requests (s : State) (tsh : Tsh) : (s.setTsh tsh).requests = s.requests := rfl
@[simp] theorem State.setTsh_stream (s : State) (tsh : Tsh) : (s.setTsh tsh).stream = s.stream := rfl
@[simp] theorem State.setTsh_streamPos (s : State) (tsh : Tsh) : (s.setTsh tsh).streamPos = s.streamPos := rfl
@[simp] theorem State.setTsh_returned (s : State) (tsh : Tsh) : (s.setTsh tsh).returned = s.returned := rfl
@[simp] theorem State.setTsh_chunks (s : State) (tsh : Tsh) : (s.setTsh tsh).chunks = s.chunks := rfl
@[simp] theorem State.setTsh_freeCount (s : State) (tsh : Tsh) : (s.setTsh tsh).freeCount = s.freeCount := rfl

@[simp] theorem State.setAf_tsh (s : State) (af : Option Af) : (s.setAf af).tsh = s.tsh := rfl
@[simp] theorem State.setAf_af (s : State) (af : Option Af) : (s.setAf af).af = af := rfl
@[simp] theorem State.setAf_result (s : State) (af : Option Af) : (s.setAf af).result = s.result := rfl
@[simp] theorem State.setAf_asm (s : State) (af : Option Af) : (s.setAf af).asm = s.asm := rfl
@[simp] theorem State.setAf_cfg (s : State) (af : Option Af) : (s.setAf af).cfg = s.cfg := rfl
@[simp] theorem State.setAf_requests (s : State) (af : Option Af) : (s.setAf af).requests = s.requests := rfl
@[simp] theorem State.setAf_stream (s : State) (af : Option Af) : (s.setAf af).stream = s.stream := rfl
@[simp] theorem State.setAf_streamPos (s : State) (af : Option Af) : (s.setAf af).streamPos = s.streamPos := rfl
@[simp] theorem State.setAf_returned (s : State) (af : Option Af) : (s.setAf af).returned = s.returned := rfl
@[simp] theorem State.setAf_chunks (s : State) (af : Option Af) : (s.setAf af).chunks = s.chunks := rfl
@[simp] theorem State.setAf_freeCount (s : State) (af : Option Af) : (s.setAf af).freeCount = s.freeCount := rfl

@[simp] theorem State.setAsm_tsh (s : State) (a : Asm) : (s.setAsm a).tsh = s.tsh := rfl
@[simp] theorem State.setAsm_af (s : State) (a : Asm) : (s.setAsm a).af = s.af := rfl
@[simp] theorem State.setAsm_result (s : State) (a : Asm) : (s.setAsm a).result = s.result := rfl
@[simp] theorem State.setAsm_asm (s : State) (a : Asm) : (s.setAsm a).asm = a := rfl
@[simp] theorem State.setAsm_cfg (s : State) (a : Asm) : (s.setAsm a).cfg = s.cfg := rfl
@[simp] theorem State.setAsm_requests (s : State) (a : Asm) : (s.setAsm a).requests = s.requests := rfl
@[simp] theorem State.setAsm_stream (s : State) (a : Asm) : (s.setAsm a).stream = s.stream := rfl
@[simp] theorem State.setAsm_streamPos (s : State) (a : Asm) : (s.setAsm a).streamPos = s.streamPos := rfl
@[simp] theorem State.setAsm_returned (s : State) (a : Asm) : (s.setAsm a).returned = s.returned := rfl
@[simp] theorem State.setAsm_chunks (s : State) (a : Asm) : (s.setAsm a).chunks = s.chunks := rfl
@[simp] theorem State.setAsm_freeCount (s : State) (a : Asm) : (s.setAsm a).freeCount = s.freeCount := rfl

@[simp] theorem State.setResult_tsh (s : State) (r : Result) : (s.setResult r).tsh = s.tsh := rfl
@[simp] theorem State.setResult_af (s : State) (r : Result) : (s.setResult r).af = s.af := rfl
@[simp] theorem State.setResult_result (s : State) (r : Result) : (s.setResult r).result = r := rfl
@[simp] theorem State.setResult_asm (s : State) (r : Result) : (s.setResult r).asm = s.asm := rfl
@[simp] theorem State.setResult_cfg (s : State) (r : Result) : (s.setResult r).cfg = s.cfg := rfl
@[simp] theorem State.setResult_requests (s : State) (r : Result) : (s.setResult r).requests = s.requests := rfl
@[simp] theorem State.setResult_stream (s : State) (r : Result) : (s.setResult r).stream = s.stream := rfl
@[simp] theorem State.setResult_streamPos (s : State) (r : Result) : (s.setResult r).streamPos = s.streamPos := rfl
@[simp] theorem State.setResult_returned (s : State) (r : Result) : (s.setResult r).returned = s.returned := rfl
@[simp] theorem State.setResult_chunks (s : State) (r : Result) : (s.setResult r).chunks = s.chunks := rfl
@[simp] theorem State.setResult_freeCount (s : State) (r : Result) : (s.setResult r).freeCount = s.freeCount := rfl

@[simp] theorem State.giveBack_tsh (s : State) (r : Returned) : (s.giveBack r).tsh = s.tsh := rfl
@[simp] theorem State.giveBack_af (s : State) (r : Returned) : (s.giveBack r).af = s.af := rfl
@[simp] theorem State.giveBack_result (s : State) (r : Returned) : (s.giveBack r).result = s.result := rfl
@[simp] theorem State.giveBack_asm (s : State) (r : Returned) : (s.giveBack r).asm = s.asm := rfl
@[simp] theorem State.giveBack_cfg (s : State) (r : Returned) : (s.giveBack r).cfg = s.cfg := rfl
@[simp] theorem State.giveBack_requests (s : State) (r : Returned) : (s.giveBack r).requests = s.requests := rfl
@[simp] theorem State.giveBack_stream (s : State) (r : Returned) : (s.giveBack r).stream = s.stream := rfl
@[simp] theorem State.giveBack_streamPos (s : State) (r : Returned) : (s.giveBack r).streamPos = s.streamPos := rfl
@[simp] theorem State.giveBack_returned (s : State) (r : Returned) : (s.giveBack r).returned = r := rfl
@[simp] theorem State.giveBack_chunks (s : State) (r : Returned) : (s.giveBack r).chunks = s.chunks := rfl
@[simp] theorem State.giveBack_freeCount (s : State) (r : Returned) : (s.giveBack r).freeCount = s.freeCount := rfl

@[simp] theorem State.giveChunk_tsh (s : State) (bs : List Byte) : (s.giveChunk bs).tsh = s.tsh := rfl
@[simp] theorem State.giveChunk_af (s : State) (bs : List Byte) : (s.giveChunk bs).af = s.af := rfl
@[simp] theorem State.giveChunk_result (s : State) (bs : List Byte) : (s.giveChunk bs).result = s.result := rfl
@[simp] theorem State.giveChunk_asm (s : State) (bs : List Byte) : (s.giveChunk bs).asm = s.asm := rfl
@[simp] theorem State.giveChunk_cfg (s : State) (bs : List Byte) : (s.giveChunk bs).cfg = s.cfg := rfl
@[simp] theorem State.giveChunk_requests (s : State) (bs : List Byte) : (s.giveChunk bs).requests = s.requests := rfl
@[simp] theorem State.giveChunk_stream (s : State) (bs : List Byte) : (s.giveChunk bs).stream = s.stream := rfl
@[simp] theorem State.giveChunk_streamPos (s : State) (bs : List Byte) : (s.giveChunk bs).streamPos = s.streamPos := rfl
@[simp] theorem State.giveChunk_returned (s : State) (bs : List Byte) : (s.giveChunk bs).returned = .esChunk bs := rfl
@[simp] theorem State.giveChunk_chunks (s : State) (bs : List Byte) : (s.giveChunk bs).chunks = s.chunks ++ [bs] := rfl
@[simp] theorem State.giveChunk_freeCount (s : State) (bs : List Byte) : (s.giveChunk bs).freeCount = s.freeCount := rfl

@[simp] theorem State.takeFree_tsh (s : State) : s.takeFree.tsh = s.tsh := rfl
@[simp] theorem State.takeFree_af (s : State) : s.takeFree.af = s.af := rfl
@[simp] theorem State.takeFree_result (s : State) : s.takeFree.result = s.result := rfl
@[simp] theorem State.takeFree_asm (s : State) : s.takeFree.asm = s.asm := rfl
@[simp] theorem State.takeFree_cfg (s : State) : s.takeFree.cfg = s.cfg := rfl
@[simp] theorem State.takeFree_requests (s : State) : s.takeFree.requests = s.requests := rfl
@[simp] theorem State.takeFree_stream (s : State) : s.takeFree.stream = s.stream := rfl
@[simp] theorem State.takeFree_streamPos (s : State) : s.takeFree.streamPos = s.streamPos := rfl
@[simp] theorem State.takeFree_returned (s : State) : s.takeFree.returned = s.returned := rfl
@[simp] theorem State.takeFree_chunks (s : State) : s.takeFree.chunks = s.chunks := rfl
@[simp] theorem State.takeFree_freeCount (s : State) : s.takeFree.freeCount = s.freeCount + 1 := rfl

@[simp] theorem Asm.bufReset_targetPid (a : Asm) : (a.bufReset).targetPid = a.targetPid := rfl
@[simp] theorem Asm.bufReset_buffer (a : Asm) : (a.bufReset).buffer = [] := rfl
@[simp] theorem Asm.bufReset_bytesAccumulated (a : Asm) : (a.bufReset).bytesAccumulated = 0 := rfl
@[simp] theorem Asm.bufReset_lastCC (a : Asm) : (a.bufReset).lastCC = a.lastCC := rfl
@[simp] theorem Asm.bufReset_started (a : Asm) : (a.bufReset).started = a.started := rfl
@[simp] theorem Asm.bufReset_header (a : Asm) : (a.bufReset).header = a.header := rfl

@[simp] theorem Asm.append_targetPid (a : Asm) (bs : List Byte) : (a.append bs).targetPid = a.targetPid := rfl
@[simp] theorem Asm.append_buffer (a : Asm) (bs : List Byte) : (a.append bs).buffer = Memory.writeBytes a.buffer a.bytesAccumulated bs := rfl
@[simp] theorem Asm.append_bytesAccumulated (a : Asm) (bs : List Byte) : (a.append bs).bytesAccumulated = a.bytesAccumulated + bs.length := rfl
@[simp] theorem Asm.append_lastCC (a : Asm) (bs : List Byte) : (a.append bs).lastCC = a.lastCC := rfl
@[simp] theorem Asm.append_started (a : Asm) (bs : List Byte) : (a.append bs).started = a.started := rfl
@[simp] theorem Asm.append_header (a : Asm) (bs : List Byte) : (a.append bs).header = a.header := rfl

@[simp] theorem Asm.recordCounter_targetPid (a : Asm) (cc : BitVec 4) : (a.recordCounter cc).targetPid = a.targetPid := rfl
@[simp] theorem Asm.recordCounter_buffer (a : Asm) (cc : BitVec 4) : (a.recordCounter cc).buffer = a.buffer := rfl
@[simp] theorem Asm.recordCounter_bytesAccumulated (a : Asm) (cc : BitVec 4) : (a.recordCounter cc).bytesAccumulated = a.bytesAccumulated := rfl
@[simp] theorem Asm.recordCounter_lastCC (a : Asm) (cc : BitVec 4) : (a.recordCounter cc).lastCC = some cc := rfl
@[simp] theorem Asm.recordCounter_started (a : Asm) (cc : BitVec 4) : (a.recordCounter cc).started = a.started := rfl
@[simp] theorem Asm.recordCounter_header (a : Asm) (cc : BitVec 4) : (a.recordCounter cc).header = a.header := rfl

@[simp] theorem Asm.setStarted_targetPid (a : Asm) (b : Bool) : (a.setStarted b).targetPid = a.targetPid := rfl
@[simp] theorem Asm.setStarted_buffer (a : Asm) (b : Bool) : (a.setStarted b).buffer = a.buffer := rfl
@[simp] theorem Asm.setStarted_bytesAccumulated (a : Asm) (b : Bool) : (a.setStarted b).bytesAccumulated = a.bytesAccumulated := rfl
@[simp] theorem Asm.setStarted_lastCC (a : Asm) (b : Bool) : (a.setStarted b).lastCC = a.lastCC := rfl
@[simp] theorem Asm.setStarted_started (a : Asm) (b : Bool) : (a.setStarted b).started = b := rfl
@[simp] theorem Asm.setStarted_header (a : Asm) (b : Bool) : (a.setStarted b).header = a.header := rfl

@[simp] theorem Asm.setHeader_targetPid (a : Asm) (h : PesHeader) : (a.setHeader h).targetPid = a.targetPid := rfl
@[simp] theorem Asm.setHeader_buffer (a : Asm) (h : PesHeader) : (a.setHeader h).buffer = a.buffer := rfl
@[simp] theorem Asm.setHeader_bytesAccumulated (a : Asm) (h : PesHeader) : (a.setHeader h).bytesAccumulated = a.bytesAccumulated := rfl
@[simp] theorem Asm.setHeader_lastCC (a : Asm) (h : PesHeader) : (a.setHeader h).lastCC = a.lastCC := rfl
@[simp] theorem Asm.setHeader_started (a : Asm) (h : PesHeader) : (a.setHeader h).started = a.started := rfl
@[simp] theorem Asm.setHeader_header (a : Asm) (h : PesHeader) : (a.setHeader h).header = h := rfl

@[simp] theorem Asm.fresh_targetPid (pid : BitVec 13) : (Asm.fresh pid).targetPid = pid := rfl
@[simp] theorem Asm.fresh_buffer (pid : BitVec 13) : (Asm.fresh pid).buffer = [] := rfl
@[simp] theorem Asm.fresh_bytesAccumulated (pid : BitVec 13) : (Asm.fresh pid).bytesAccumulated = 0 := rfl
@[simp] theorem Asm.fresh_lastCC (pid : BitVec 13) : (Asm.fresh pid).lastCC = none := rfl
@[simp] theorem Asm.fresh_started (pid : BitVec 13) : (Asm.fresh pid).started = false := rfl
@[simp] theorem Asm.fresh_header (pid : BitVec 13) : (Asm.fresh pid).header = PesHeader.zero := rfl

@[simp] theorem State.reset_tsh : State.reset.tsh = Tsh.zero := rfl
@[simp] theorem State.reset_af : State.reset.af = none := rfl
@[simp] theorem State.reset_result : State.reset.result = .noResult := rfl
@[simp] theorem State.reset_asm : State.reset.asm = Asm.fresh 0 := rfl
@[simp] theorem State.reset_requests : State.reset.requests = [] := rfl
@[simp] theorem State.reset_stream : State.reset.stream = [] := rfl
@[simp] theorem State.reset_streamPos : State.reset.streamPos = 0 := rfl
@[simp] theorem State.reset_returned : State.reset.returned = .nothing := rfl
@[simp] theorem State.reset_chunks : State.reset.chunks = [] := rfl
@[simp] theorem State.reset_freeCount : State.reset.freeCount = 0 := rfl
@[simp] theorem classTsh_syncByte (u : BitVec 1) (c : BitVec 2) (h : HeaderFields) : (classTsh u c h).syncByte = Sys2Proof.syncByte := rfl
@[simp] theorem classTsh_errorIndicator (u : BitVec 1) (c : BitVec 2) (h : HeaderFields) : (classTsh u c h).errorIndicator = h.errorIndicator := rfl
@[simp] theorem classTsh_payloadUnitStart (u : BitVec 1) (c : BitVec 2) (h : HeaderFields) : (classTsh u c h).payloadUnitStart = u := rfl
@[simp] theorem classTsh_priority (u : BitVec 1) (c : BitVec 2) (h : HeaderFields) : (classTsh u c h).priority = h.priority := rfl
@[simp] theorem classTsh_pid (u : BitVec 1) (c : BitVec 2) (h : HeaderFields) : (classTsh u c h).pid = h.pid := rfl
@[simp] theorem classTsh_scramblingControl (u : BitVec 1) (c : BitVec 2) (h : HeaderFields) : (classTsh u c h).scramblingControl = h.scramblingControl := rfl
@[simp] theorem classTsh_adaptationFieldControl (u : BitVec 1) (c : BitVec 2) (h : HeaderFields) : (classTsh u c h).adaptationFieldControl = c := rfl
@[simp] theorem classTsh_continuityCounter (u : BitVec 1) (c : BitVec 2) (h : HeaderFields) : (classTsh u c h).continuityCounter = h.continuityCounter := rfl

/-- The free RESULT is none of the errors raised on a condition of their own (R131, R151). -/
@[simp] theorem Result.unstated_ne_invalidSync (i : Fin 7) : Result.unstated i ≠ .invalidSync := by
  revert i; decide
@[simp] theorem Result.unstated_ne_invalidAfc (i : Fin 7) : Result.unstated i ≠ .invalidAfc := by
  revert i; decide

/-- All that an operation ended by `finishUnstated` does besides what came before it: RESULT and the count of free values. -/
theorem finishUnstated_eq (s : State) : finishUnstated s
    = .next { s with result := .unstated (Config.freeResult s.freeCount), freeCount := s.freeCount + 1 } := rfl

end Sys2Proof.Machine
end

