-- ==== Sys2Proof/Laws/Memory.lean ====
section
/-! SUPPORT. BUF as a memory: what a read sees after a write, and that every operation keeps the canonical form. -/

namespace Sys2Proof.Machine

@[simp] theorem Memory.read_nil (x : Nat) : Memory.read [] x = none := rfl

theorem Memory.read_cons (c : Host.Cell) (m : Memory) (x : Nat) :
    Memory.read (c :: m) x = if c.1 = x then some c.2 else Memory.read m x := by
  by_cases h : c.1 = x <;> simp [Memory.read, h]

theorem Memory.read_append (m n : Memory) (x : Nat) :
    Memory.read (m ++ n) x = (Memory.read m x).or (Memory.read n x) := by
  induction m with
  | nil => simp [Memory.read_nil]
  | cons c m ih => by_cases h : c.1 = x <;> simp [Memory.read_cons, h, ih]

/-- A filter by address does not change what its addresses read as, and the others read as nothing. -/
theorem Memory.read_filter (m : Memory) (keep : Nat → Bool) (x : Nat) :
    Memory.read (m.filter fun c => keep c.1) x = if keep x then Memory.read m x else none := by
  induction m with
  | nil => simp
  | cons c m ih =>
    by_cases hx : c.1 = x
    · subst hx
      by_cases hk : keep c.1 <;> simp_all [Memory.read_cons]
    · by_cases hk : keep c.1 <;> simp_all [Memory.read_cons]

theorem read_cellsFrom (bs : List Byte) (a x : Nat) :
    Memory.read (cellsFrom a bs) x = if a ≤ x then bs[x - a]? else none := by
  induction bs generalizing a with
  | nil => simp [cellsFrom]
  | cons b bs ih =>
    rw [cellsFrom, Memory.read_cons, ih]
    by_cases h : a = x
    · subst h; simp
    · by_cases hle : a ≤ x
      · have : x - a = (x - (a + 1)) + 1 := by omega
        rw [if_neg h, if_pos hle, if_pos (by omega), this, List.getElem?_cons_succ]
      · rw [if_neg h, if_neg hle, if_neg (by omega)]

/-- What a read sees after a write: the written bytes at their addresses, everything else as before. -/
theorem Memory.read_writeBytes (m : Memory) (a : Nat) (bs : List Byte) (x : Nat) :
    Memory.read (Memory.writeBytes m a bs) x =
      if a ≤ x ∧ x < a + bs.length then bs[x - a]? else Memory.read m x := by
  rw [Memory.writeBytes, Memory.read_append, Memory.read_append, read_cellsFrom,
    Memory.read_filter m (fun k => decide (k < a)), Memory.read_filter m (fun k => decide (a + bs.length ≤ k))]
  by_cases h1 : x < a
  · simp [h1, show ¬ a ≤ x by omega, show ¬ a + bs.length ≤ x by omega]
  · by_cases h2 : x < a + bs.length
    · simp [h1, h2, show a ≤ x by omega, show ¬ a + bs.length ≤ x by omega]
    · simp [h1, h2, show a ≤ x by omega, show a + bs.length ≤ x by omega, show bs.length ≤ x - a by omega]

@[simp] theorem cellsFrom_addresses (bs : List Byte) (a : Nat) :
    (cellsFrom a bs).map Prod.fst = List.range' a bs.length := by
  induction bs generalizing a with
  | nil => rfl
  | cons b bs ih => simp [cellsFrom, ih, List.range'_succ]

/-- The canonical form is a fact about the addresses alone. -/
theorem Memory.wf_iff (m : Memory) : m.wf = true ↔ (m.map Prod.fst).Pairwise (· < ·) := by
  simp [Memory.wf, List.pairwise_map]

theorem wf_cellsFrom (bs : List Byte) (a : Nat) : Memory.wf (cellsFrom a bs) = true := by
  rw [Memory.wf_iff, cellsFrom_addresses]
  exact List.pairwise_lt_range' ..

/-- A write keeps the canonical form. -/
theorem Memory.wf_writeBytes (m : Memory) (a : Nat) (bs : List Byte) (h : m.wf = true) :
    (Memory.writeBytes m a bs).wf = true := by
  have hm : m.Pairwise (fun c d => c.1 < d.1) := by simpa [Memory.wf] using h
  have hc : (cellsFrom a bs).Pairwise (fun c d => c.1 < d.1) := by
    simpa [Memory.wf] using wf_cellsFrom bs a
  have hin : ∀ c ∈ cellsFrom a bs, a ≤ c.1 ∧ c.1 < a + bs.length := by
    intro c hc
    have := List.mem_map_of_mem (f := Prod.fst) hc
    rw [cellsFrom_addresses, List.mem_range'_1] at this
    exact this
  have : (Memory.writeBytes m a bs).Pairwise (fun c d => c.1 < d.1) := by
    rw [Memory.writeBytes, List.pairwise_append, List.pairwise_append]
    refine ⟨⟨hm.filter _, hc, ?_⟩, hm.filter _, ?_⟩
    · intro c hc1 d hd
      have h1 : c.1 < a := by simpa using (List.mem_filter.mp hc1).2
      exact Nat.lt_of_lt_of_le h1 (hin d hd).1
    · intro c hc1 d hd
      have h2 : a + bs.length ≤ d.1 := by simpa using (List.mem_filter.mp hd).2
      rcases List.mem_append.mp hc1 with hc2 | hc2
      · have h1 : c.1 < a := by simpa using (List.mem_filter.mp hc2).2
        omega
      · exact Nat.lt_of_lt_of_le (hin c hc2).2 h2
  simpa [Memory.wf] using this

/-- BUF is in canonical form at reset, after BufReset and after BufAppend. -/
theorem State.reset_buffer_wf : Memory.wf State.reset.asm.buffer = true := rfl

theorem Asm.wf_bufReset (a : Asm) : Memory.wf a.bufReset.buffer = true := rfl

theorem Asm.wf_append (a : Asm) (bs : List Byte) (h : Memory.wf a.buffer = true) :
    Memory.wf (a.append bs).buffer = true := by
  rw [Asm.append_buffer]
  exact Memory.wf_writeBytes _ _ _ h

/-- `MemRead` of `n` bytes answers exactly when each address answers, in address order. -/
theorem Memory.readBytes_eq_some_iff (m : Memory) (a n : Nat) (bs : List Byte) :
    Memory.readBytes m a n = some bs ↔ bs.length = n ∧ ∀ i, i < n → Memory.read m (a + i) = bs[i]? := by
  induction n generalizing a bs with
  | zero => cases bs <;> simp [Memory.readBytes]
  | succ n ih =>
    constructor
    · intro h
      rw [Memory.readBytes] at h
      split at h
      · cases h
      · rename_i b hb
        split at h
        · cases h
        · rename_i tl htl
          cases h
          obtain ⟨hlen, hall⟩ := (ih (a + 1) tl).mp htl
          refine ⟨by simp [hlen], fun i hi => ?_⟩
          cases i with
          | zero => simpa using hb
          | succ i =>
            rw [List.getElem?_cons_succ, ← hall i (by omega), show a + (i + 1) = a + 1 + i by omega]
    · rintro ⟨hlen, hall⟩
      cases bs with
      | nil => simp at hlen
      | cons b tl =>
        have hb : Memory.read m a = some b := by simpa using hall 0 (by omega)
        have htl : Memory.readBytes m (a + 1) n = some tl := by
          refine (ih (a + 1) tl).mpr ⟨by simpa using hlen, fun i hi => ?_⟩
          have := hall (i + 1) (by omega)
          rw [List.getElem?_cons_succ] at this
          rw [← this, show a + (i + 1) = a + 1 + i by omega]
        rw [Memory.readBytes, hb, htl]

/-! ### BUF and its length -/

/-- BufReset leaves BUF exact (R186). -/
theorem Asm.bufferExact_bufReset (a : Asm) : a.bufReset.BufferExact := by simp [Asm.BufferExact]

/-- An exact BUF is in canonical form. -/
theorem Asm.BufferExact.wf {a : Asm} (h : a.BufferExact) : Memory.wf a.buffer = true := by
  rw [Memory.wf_iff, h]
  exact List.pairwise_lt_range

/-- Every address of an exact BUF lies below its length. -/
theorem Asm.BufferExact.lt {a : Asm} (h : a.BufferExact) {c : Host.Cell} (hc : c ∈ a.buffer) :
    c.1 < a.bytesAccumulated := by
  have := List.mem_map_of_mem (f := Prod.fst) hc
  rw [h] at this
  simpa using this

/-- BufAppend puts the new bytes after the old ones (R187). -/
theorem Asm.append_buffer_of_exact {a : Asm} (h : a.BufferExact) (bs : List Byte) :
    (a.append bs).buffer = a.buffer ++ cellsFrom a.bytesAccumulated bs := by
  have h1 : a.buffer.filter (fun c => decide (c.1 < a.bytesAccumulated)) = a.buffer :=
    List.filter_eq_self.mpr fun c hc => by simpa using h.lt hc
  have h2 : a.buffer.filter (fun c => decide (a.bytesAccumulated + bs.length ≤ c.1)) = [] :=
    List.filter_eq_nil_iff.mpr fun c hc => by have := h.lt hc; simp; omega
  simp only [Asm.append_buffer, Memory.writeBytes, h1, h2, List.append_nil]

/-- BufAppend keeps BUF exact. -/
theorem Asm.BufferExact.append {a : Asm} (h : a.BufferExact) (bs : List Byte) : (a.append bs).BufferExact := by
  rw [Asm.BufferExact, Asm.append_buffer_of_exact h, List.map_append, h, cellsFrom_addresses,
    Asm.append_bytesAccumulated, List.range_eq_range', List.range_eq_range']
  simpa using List.range'_append_1 (s := 0) (m := a.bytesAccumulated) (n := bs.length)

/-- In an exact BUF the addresses that hold a byte are those below the length. -/
theorem Asm.BufferExact.read_isSome {a : Asm} (h : a.BufferExact) (x : Nat) :
    (Memory.read a.buffer x).isSome = true ↔ x < a.bytesAccumulated := by
  have : (Memory.read a.buffer x).isSome = true ↔ x ∈ a.buffer.map Prod.fst := by
    simp [Memory.read, List.find?_isSome]
  rw [this, h, List.mem_range]

/-- `MemRead` inside an exact BUF answers. -/
theorem Asm.BufferExact.readBytes {a : Asm} (h : a.BufferExact) (n x : Nat) (hx : x + n ≤ a.bytesAccumulated) :
    ∃ bs, Memory.readBytes a.buffer x n = some bs ∧ bs.length = n := by
  induction n generalizing x with
  | zero => exact ⟨[], rfl, rfl⟩
  | succ n ih =>
    obtain ⟨b, hb⟩ := Option.isSome_iff_exists.mp ((h.read_isSome x).mpr (by omega))
    obtain ⟨bs, hbs, hlen⟩ := ih (x + 1) (by omega)
    exact ⟨b :: bs, by rw [Memory.readBytes, hb, hbs], by simp [hlen]⟩

end Sys2Proof.Machine
end

