-- ==== Sys2Proof/Laws/Assembler.lean ====
section
/-! SUPPORT. What each shared operation of the assembler can do, said once. -/

namespace Sys2Proof.Machine

/-! ### How an operation ends -/

@[simp] theorem finish_eq (r : Result) (s : State) : finish r s = .next (s.setResult r) := rfl

@[simp] theorem commit_ok (s : State) (a : Asm) (r : Result) :
    commit s (.ok (a, r)) = .next ((s.setAsm a).setResult r) := rfl

@[simp] theorem commit_error (s : State) (f : Fault) : commit s (.error f) = .fault f := rfl

/-- An operation of the assembler ends in a next state exactly when the assembler answers. -/
theorem commit_eq_next_iff (s t : State) (x : Except Fault (Asm × Result)) :
    commit s x = .next t ↔ ∃ a r, x = .ok (a, r) ∧ t = (s.setAsm a).setResult r := by
  rcases x with f | ⟨a, r⟩
  · simp
  · simp [eq_comm]

/-! ### BufAppend -/

theorem Asm.bufAppend_of_fits (cap : Nat) (bs : List Byte) (a : Asm) (h : a.bytesAccumulated + bs.length ≤ cap) :
    a.bufAppend cap bs = .ok (a.append bs) := by simp [Asm.bufAppend, h]

theorem Asm.bufAppend_of_overflow (cap : Nat) (bs : List Byte) (a : Asm)
    (h : cap < a.bytesAccumulated + bs.length) : a.bufAppend cap bs = .error .bufferOverflow := by
  simp [Asm.bufAppend, h]

/-- BufAppend answers exactly when there is room, and then with the bytes appended (R187). -/
theorem Asm.bufAppend_eq_ok_iff (cap : Nat) (bs : List Byte) (a a' : Asm) :
    a.bufAppend cap bs = .ok a' ↔ a.bytesAccumulated + bs.length ≤ cap ∧ a' = a.append bs := by
  by_cases h : cap < a.bytesAccumulated + bs.length
  · simp [Asm.bufAppend_of_overflow cap bs a h, show ¬ a.bytesAccumulated + bs.length ≤ cap by omega]
  · have hle : a.bytesAccumulated + bs.length ≤ cap := by omega
    rw [Asm.bufAppend_of_fits cap bs a hle]
    simp [hle, eq_comm]

/-! ### Steps S1 to S3 -/

/-- The expected counter, in numbers (R190). -/
theorem eq_expectedCC_iff (cc last : BitVec 4) : cc = expectedCC last ↔ cc.toNat = (last.toNat + 1) % 16 := by
  rw [← BitVec.toNat_inj, expectedCC, BitVec.toNat_ofNat]
  omega

theorem admission_eq_foreign_iff (tsh : Tsh) (a : Asm) : admission tsh a = .foreign ↔ tsh.pid ≠ a.targetPid := by
  unfold admission
  by_cases h : tsh.pid = a.targetPid
  · by_cases hs : a.started
    · cases hl : a.lastCC with
      | none => simp [h, hs]
      | some last => by_cases hc : tsh.continuityCounter = expectedCC last <;> simp [h, hs, hc]
    · simp [h, hs]
  · simp [h]

theorem admission_eq_lost_iff (tsh : Tsh) (a : Asm) :
    admission tsh a = .lost ↔ a.Misses tsh.pid tsh.continuityCounter := by
  unfold admission Asm.Misses
  simp only [ne_eq, ← eq_expectedCC_iff]
  by_cases h : tsh.pid = a.targetPid
  · by_cases hs : a.started
    · cases hl : a.lastCC with
      | none => simp [h, hs]
      | some last => by_cases hc : tsh.continuityCounter = expectedCC last <;> simp [h, hs, hc]
    · simp [h, hs]
  · simp [h]

theorem admission_eq_accepted_iff (tsh : Tsh) (a : Asm) :
    admission tsh a = .accepted ↔ a.Expects tsh.pid tsh.continuityCounter := by
  unfold admission Asm.Expects
  simp only [← eq_expectedCC_iff]
  by_cases h : tsh.pid = a.targetPid
  · by_cases hs : a.started
    · cases hl : a.lastCC with
      | none => simp [h, hs]
      | some last => by_cases hc : tsh.continuityCounter = expectedCC last <;> simp [h, hs, hc]
    · simp [h, hs]
  · simp [h]

theorem admission_eq_unknownCounter_iff (tsh : Tsh) (a : Asm) :
    admission tsh a = .unknownCounter ↔ tsh.pid = a.targetPid ∧ a.started = true ∧ a.lastCC = none := by
  unfold admission
  by_cases h : tsh.pid = a.targetPid
  · by_cases hs : a.started
    · cases hl : a.lastCC with
      | none => simp [h, hs]
      | some last => by_cases hc : tsh.continuityCounter = expectedCC last <;> simp [h, hs, hc]
    · simp [h, hs]
  · simp [h]

/-- Step S1 (R189). -/
theorem admitted_of_foreign {tsh : Tsh} {a : Asm} (h : tsh.pid ≠ a.targetPid)
    (k : Asm → Except Fault (Asm × Result)) : admitted tsh a k = .ok (a, .unexpectedPid) := by
  simp [admitted, (admission_eq_foreign_iff tsh a).mpr h]

/-- Step S2 on a mismatch (R190). -/
theorem admitted_of_misses {tsh : Tsh} {a : Asm} (h : a.Misses tsh.pid tsh.continuityCounter)
    (k : Asm → Except Fault (Asm × Result)) :
    admitted tsh a k = .ok ((a.setStarted false).bufReset, .streamPacketLost) := by
  simp [admitted, (admission_eq_lost_iff tsh a).mpr h]

/-- Steps S1 to S3 passed (R197). -/
theorem admitted_of_expects {tsh : Tsh} {a : Asm} (h : a.Expects tsh.pid tsh.continuityCounter)
    (k : Asm → Except Fault (Asm × Result)) :
    admitted tsh a k = k (a.recordCounter tsh.continuityCounter) := by
  simp [admitted, (admission_eq_accepted_iff tsh a).mpr h]

/-- Everything steps S1 to S3 can do. -/
theorem admitted_ok_cases {tsh : Tsh} {a a' : Asm} {r : Result} {k : Asm → Except Fault (Asm × Result)}
    (h : admitted tsh a k = .ok (a', r)) :
    (tsh.pid ≠ a.targetPid ∧ a' = a ∧ r = .unexpectedPid) ∨
    (a.Misses tsh.pid tsh.continuityCounter ∧ a' = (a.setStarted false).bufReset ∧ r = .streamPacketLost) ∨
    (a.Expects tsh.pid tsh.continuityCounter ∧ k (a.recordCounter tsh.continuityCounter) = .ok (a', r)) := by
  unfold admitted at h
  split at h
  · rename_i hf
    cases h
    exact .inl ⟨(admission_eq_foreign_iff tsh a).mp hf, rfl, rfl⟩
  · rename_i hl
    cases h
    exact .inr (.inl ⟨(admission_eq_lost_iff tsh a).mp hl, rfl, rfl⟩)
  · cases h
  · rename_i ha
    exact .inr (.inr ⟨(admission_eq_accepted_iff tsh a).mp ha, h⟩)

/-! ### Steps S5 and S6 -/

/-- PESH.PARSE fails exactly when fewer than six bytes are there (R176). -/
theorem parsePesHeader_eq_none_iff (bs : List Byte) : parsePesHeader bs = none ↔ bs.length < 6 := by
  rcases bs with _ | ⟨_, _ | ⟨_, _ | ⟨_, _ | ⟨_, _ | ⟨_, _ | ⟨_, _⟩⟩⟩⟩⟩⟩ <;> simp [parsePesHeader]

theorem parsePesHeader_isSome {bs : List Byte} (h : 6 ≤ bs.length) : ∃ hd, parsePesHeader bs = some hd := by
  cases hp : parsePesHeader bs with
  | none => have := (parsePesHeader_eq_none_iff bs).mp hp; omega
  | some hd => exact ⟨hd, rfl⟩

/-- The assembler after a start that parsed (R195). -/
def Asm.startedWith (a : Asm) (hd : PesHeader) (payload : List Byte) : Asm :=
  (((a.bufReset).setHeader hd).setStarted true).append payload

@[simp] theorem Asm.startedWith_targetPid (a : Asm) (hd : PesHeader) (bs : List Byte) :
    (a.startedWith hd bs).targetPid = a.targetPid := rfl
@[simp] theorem Asm.startedWith_buffer (a : Asm) (hd : PesHeader) (bs : List Byte) :
    (a.startedWith hd bs).buffer = cellsFrom 0 bs := by simp [Asm.startedWith, Memory.writeBytes]
@[simp] theorem Asm.startedWith_bytesAccumulated (a : Asm) (hd : PesHeader) (bs : List Byte) :
    (a.startedWith hd bs).bytesAccumulated = bs.length := by simp [Asm.startedWith]
@[simp] theorem Asm.startedWith_lastCC (a : Asm) (hd : PesHeader) (bs : List Byte) :
    (a.startedWith hd bs).lastCC = a.lastCC := rfl
@[simp] theorem Asm.startedWith_started (a : Asm) (hd : PesHeader) (bs : List Byte) :
    (a.startedWith hd bs).started = true := rfl
@[simp] theorem Asm.startedWith_header (a : Asm) (hd : PesHeader) (bs : List Byte) :
    (a.startedWith hd bs).header = hd := rfl

theorem startPes_of_parsed {cap : Nat} {bs : List Byte} {a : Asm} {hd : PesHeader}
    (hp : parsePesHeader bs = some hd) (hfit : bs.length ≤ cap) :
    startPes cap bs a = .ok (a.startedWith hd bs, .assemblingStarted) := by
  have : (((a.bufReset).setHeader hd).setStarted true).bufAppend cap bs = .ok (a.startedWith hd bs) :=
    Asm.bufAppend_of_fits cap bs _ (by simpa using hfit)
  simp [startPes, hp, this]

theorem startPes_of_truncated {cap : Nat} {bs : List Byte} {a : Asm} (hp : bs.length < 6) :
    startPes cap bs a =
      .ok ((a.bufReset).setStarted false, if a.started then .assemblingFinished else .unexpectedPid) := by
  simp [startPes, (parsePesHeader_eq_none_iff bs).mpr hp]

theorem startPes_of_overflow {cap : Nat} {bs : List Byte} {a : Asm} (hp : 6 ≤ bs.length) (hfit : cap < bs.length) :
    startPes cap bs a = .error .bufferOverflow := by
  obtain ⟨hd, hp⟩ := parsePesHeader_isSome hp
  have : (((a.bufReset).setHeader hd).setStarted true).bufAppend cap bs = .error .bufferOverflow :=
    Asm.bufAppend_of_overflow cap bs _ (by simpa using hfit)
  simp [startPes, hp, this]

/-- Everything step S5 can do (R194 to R196). -/
theorem startPes_ok_cases {cap : Nat} {bs : List Byte} {a a' : Asm} {r : Result}
    (h : startPes cap bs a = .ok (a', r)) :
    (∃ hd, parsePesHeader bs = some hd ∧ bs.length ≤ cap ∧ a' = a.startedWith hd bs ∧ r = .assemblingStarted) ∨
    (bs.length < 6 ∧ a' = (a.bufReset).setStarted false ∧
      r = if a.started then .assemblingFinished else .unexpectedPid) := by
  by_cases hp : bs.length < 6
  · rw [startPes_of_truncated hp] at h
    cases h
    exact .inr ⟨hp, rfl, rfl⟩
  · by_cases hfit : bs.length ≤ cap
    · obtain ⟨hd, hhd⟩ := parsePesHeader_isSome (by omega : 6 ≤ bs.length)
      rw [startPes_of_parsed hhd hfit] at h
      cases h
      exact .inl ⟨hd, hhd, hfit, rfl, rfl⟩
    · rw [startPes_of_overflow (by omega) (by omega)] at h
      cases h

theorem continuePes_of_idle {cap : Nat} {bs : List Byte} {a : Asm} (h : a.started = false) :
    continuePes cap bs a = .ok (a, .unexpectedPid) := by simp [continuePes, ignorePacket, h]

theorem continuePes_of_fits {cap : Nat} {bs : List Byte} {a : Asm} (h : a.started = true)
    (hfit : a.bytesAccumulated + bs.length ≤ cap) :
    continuePes cap bs a =
      if (a.append bs).complete then .ok ((a.append bs).setStarted false, .assemblingFinished)
      else .ok (a.append bs, .assemblingContinue) := by
  simp [continuePes, h, Asm.bufAppend_of_fits cap bs a hfit]

theorem continuePes_of_overflow {cap : Nat} {bs : List Byte} {a : Asm} (h : a.started = true)
    (hfit : cap < a.bytesAccumulated + bs.length) : continuePes cap bs a = .error .bufferOverflow := by
  simp [continuePes, h, Asm.bufAppend_of_overflow cap bs a hfit]

/-- Everything step S6 can do on a packet with payload (R198 to R201). -/
theorem continuePes_ok_cases {cap : Nat} {bs : List Byte} {a a' : Asm} {r : Result}
    (h : continuePes cap bs a = .ok (a', r)) :
    (a.started = false ∧ a' = a ∧ r = .unexpectedPid) ∨
    (a.started = true ∧ a.bytesAccumulated + bs.length ≤ cap ∧ (a.append bs).complete = true ∧
      a' = (a.append bs).setStarted false ∧ r = .assemblingFinished) ∨
    (a.started = true ∧ a.bytesAccumulated + bs.length ≤ cap ∧ (a.append bs).complete = false ∧
      a' = a.append bs ∧ r = .assemblingContinue) := by
  cases hs : a.started with
  | false =>
    rw [continuePes_of_idle hs] at h
    cases h
    exact .inl ⟨rfl, rfl, rfl⟩
  | true =>
    by_cases hfit : a.bytesAccumulated + bs.length ≤ cap
    · rw [continuePes_of_fits hs hfit] at h
      cases hc : (a.append bs).complete with
      | true =>
        rw [hc] at h
        cases h
        exact .inr (.inl ⟨rfl, hfit, rfl, rfl, rfl⟩)
      | false =>
        rw [hc] at h
        cases h
        exact .inr (.inr ⟨rfl, hfit, rfl, rfl, rfl⟩)
    · rw [continuePes_of_overflow hs (by omega)] at h
      cases h

/-- The completion check in words (R200). -/
theorem Asm.complete_iff (a : Asm) :
    a.complete = true ↔ 6 ≤ a.bytesAccumulated ∧ a.header.packetLength ≠ 0 ∧
      a.header.packetLength.toNat + 6 ≤ a.bytesAccumulated := by
  simp [Asm.complete, and_assoc]

/-- Everything PES.ABSORB can do, by the rows of R205: T1, T2, T3 and T6, T4 and T7, T5 and T8, T10, T9. -/
theorem absorb_ok_cases {cap : Nat} {p : Block 188} {tsh : Tsh} {adapt : Option Af} {a a' : Asm} {r : Result}
    (h : absorb cap p tsh adapt a = .ok (a', r)) :
    (tsh.pid ≠ a.targetPid ∧ a' = a ∧ r = .unexpectedPid) ∨
    (a.Misses tsh.pid tsh.continuityCounter ∧ a' = (a.setStarted false).bufReset ∧ r = .streamPacketLost) ∨
    (a.Expects tsh.pid tsh.continuityCounter ∧
      ((tsh.payloadUnitStart = 1#1 ∧ ∃ hd, parsePesHeader (packetPayload p (payloadOffset adapt)) = some hd ∧
          (packetPayload p (payloadOffset adapt)).length ≤ cap ∧
          a' = (a.recordCounter tsh.continuityCounter).startedWith hd (packetPayload p (payloadOffset adapt)) ∧
          r = .assemblingStarted) ∨
       (tsh.payloadUnitStart = 1#1 ∧ (packetPayload p (payloadOffset adapt)).length < 6 ∧
          a' = ((a.recordCounter tsh.continuityCounter).bufReset).setStarted false ∧
          r = if a.started then .assemblingFinished else .unexpectedPid) ∨
       (tsh.payloadUnitStart ≠ 1#1 ∧
          (hasPayload tsh.adaptationFieldControl = false ∨ a.started = false) ∧
          a' = a.recordCounter tsh.continuityCounter ∧ r = .unexpectedPid) ∨
       (tsh.payloadUnitStart ≠ 1#1 ∧ hasPayload tsh.adaptationFieldControl = true ∧ a.started = true ∧
          a.bytesAccumulated + (packetPayload p (payloadOffset adapt)).length ≤ cap ∧
          (a.append (packetPayload p (payloadOffset adapt))).complete = true ∧
          a' = ((a.recordCounter tsh.continuityCounter).append
            (packetPayload p (payloadOffset adapt))).setStarted false ∧ r = .assemblingFinished) ∨
       (tsh.payloadUnitStart ≠ 1#1 ∧ hasPayload tsh.adaptationFieldControl = true ∧ a.started = true ∧
          a.bytesAccumulated + (packetPayload p (payloadOffset adapt)).length ≤ cap ∧
          (a.append (packetPayload p (payloadOffset adapt))).complete = false ∧
          a' = (a.recordCounter tsh.continuityCounter).append (packetPayload p (payloadOffset adapt)) ∧
          r = .assemblingContinue))) := by
  rcases admitted_ok_cases h with h1 | h2 | ⟨he, hk⟩
  · exact .inl h1
  · exact .inr (.inl h2)
  · refine .inr (.inr ⟨he, ?_⟩)
    split at hk
    · rename_i hu
      rcases startPes_ok_cases hk with ⟨hd, hp, hfit, rfl, rfl⟩ | ⟨hlt, rfl, rfl⟩
      · exact .inl ⟨hu, hd, hp, hfit, rfl, rfl⟩
      · exact .inr (.inl ⟨hu, hlt, rfl, rfl⟩)
    · rename_i hu
      split at hk
      · rename_i hpay
        rcases continuePes_ok_cases hk with ⟨hs, rfl, rfl⟩ | ⟨hs, hfit, hc, rfl, rfl⟩ | ⟨hs, hfit, hc, rfl, rfl⟩
        · exact .inr (.inr (.inl ⟨hu, .inr hs, rfl, rfl⟩))
        · exact .inr (.inr (.inr (.inl ⟨hu, hpay, hs, hfit, hc, rfl, rfl⟩)))
        · exact .inr (.inr (.inr (.inr ⟨hu, hpay, hs, hfit, hc, rfl, rfl⟩)))
      · rename_i hpay
        cases hk
        exact .inr (.inr (.inl ⟨hu, .inl (by simpa using hpay), rfl, rfl⟩))

end Sys2Proof.Machine
end

