-- ==== Sys2Proof/Laws/Decode.lean ====
section
/-! SUPPORT. The bit fields read back what the encoder wrote, and the encoder writes back what the fields read
(spec 40_ts_header.md R135). -/

namespace Sys2Proof

/-! ### Fields of encoded bytes -/

theorem errorIndicatorOf_headerByte1 (e u p : BitVec 1) (pid : BitVec 13) :
    errorIndicatorOf (headerByte1 e u p pid) = e := by
  ext i hi
  interval_cases i
  simp [errorIndicatorOf, headerByte1]

theorem payloadUnitStartOf_headerByte1 (e u p : BitVec 1) (pid : BitVec 13) :
    payloadUnitStartOf (headerByte1 e u p pid) = u := by
  ext i hi
  interval_cases i
  simp [payloadUnitStartOf, headerByte1]

theorem priorityOf_headerByte1 (e u p : BitVec 1) (pid : BitVec 13) :
    priorityOf (headerByte1 e u p pid) = p := by
  ext i hi
  interval_cases i
  simp [priorityOf, headerByte1]

theorem pidOf_headerBytes (e u p : BitVec 1) (pid : BitVec 13) :
    pidOf (headerByte1 e u p pid) (headerByte2 pid) = pid := by
  ext i hi
  interval_cases i <;> simp [pidOf, headerByte1, headerByte2]

theorem scramblingControlOf_headerByte3 (s a : BitVec 2) (c : BitVec 4) :
    scramblingControlOf (headerByte3 s a c) = s := by
  ext i hi
  interval_cases i <;> simp [scramblingControlOf, headerByte3]

theorem adaptationFieldControlOf_headerByte3 (s a : BitVec 2) (c : BitVec 4) :
    adaptationFieldControlOf (headerByte3 s a c) = a := by
  ext i hi
  interval_cases i <;> simp [adaptationFieldControlOf, headerByte3]

theorem continuityCounterOf_headerByte3 (s a : BitVec 2) (c : BitVec 4) :
    continuityCounterOf (headerByte3 s a c) = c := by
  ext i hi
  interval_cases i <;> simp [continuityCounterOf, headerByte3]

/-! ### Bytes of decoded fields -/

theorem headerByte1_of_fields (b1 b2 : Byte) :
    headerByte1 (errorIndicatorOf b1) (payloadUnitStartOf b1) (priorityOf b1) (pidOf b1 b2) = b1 := by
  ext i hi
  interval_cases i <;> simp [errorIndicatorOf, payloadUnitStartOf, priorityOf, pidOf, headerByte1]

theorem headerByte2_pidOf (b1 b2 : Byte) : headerByte2 (pidOf b1 b2) = b2 := by
  ext i hi
  interval_cases i <;> simp [headerByte2, pidOf]

theorem headerByte3_of_fields (b3 : Byte) :
    headerByte3 (scramblingControlOf b3) (adaptationFieldControlOf b3) (continuityCounterOf b3) = b3 := by
  ext i hi
  interval_cases i <;>
    simp [scramblingControlOf, adaptationFieldControlOf, continuityCounterOf, headerByte3]

/-! ### Blocks -/

/-- A whole block is read back as itself. -/
theorem sizedBlock_data {n : Nat} (p : Block n) : sizedBlock n p.data = some p := by
  obtain ⟨data, size⟩ := p
  subst size
  simp [sizedBlock]

/-- A block is taken from exactly the byte sequences that are long enough. -/
theorem sizedBlock_eq_none_iff (n : Nat) (bytes : List Byte) : sizedBlock n bytes = none ↔ bytes.length < n := by
  simp [sizedBlock]

theorem sizedBlock_eq_some_iff (n : Nat) (bytes : List Byte) (p : Block n) :
    sizedBlock n bytes = some p ↔ n ≤ bytes.length ∧ p.data = bytes.take n := by
  by_cases h : n ≤ bytes.length
  · obtain ⟨data, size⟩ := p
    simp [sizedBlock, h, eq_comm]
  · simp [sizedBlock, h]

/-- The byte at an address is the list's element there. -/
theorem Block.byte_eq_iff {n : Nat} (p : Block n) (i : Fin n) (b : Byte) :
    p.byte i = b ↔ p.data[i.val]? = some b := by
  rw [List.getElem?_eq_some_iff]
  exact ⟨fun h => ⟨by rw [p.size]; exact i.isLt, h⟩, fun ⟨_, h⟩ => h⟩

end Sys2Proof
end

