-- ==== Sys2Proof/Laws/Packet.lean ====
section
/-! SUPPORT. What PES.ABSORB, PKT and a step can do, said once, in the words of Safety.lean. -/

namespace Sys2Proof.Machine

/-! ### The operand forms -/

theorem hasAdaptationField_iff (afc : BitVec 2) : hasAdaptationField afc = true ↔ afc = 2#2 ∨ afc = 3#2 := by
  simp [hasAdaptationField]

theorem hasPayload_iff (afc : BitVec 2) : hasPayload afc = true ↔ afc = 1#2 ∨ afc = 3#2 := by
  simp [hasPayload]

/-- AF as PKT computes it (R240). -/
theorem decodedAf_eq (p : Block 188) (tsh : Tsh) :
    (if hasAdaptationField tsh.adaptationFieldControl then some (packetAf p) else none) = decodedAf p tsh := by
  simp only [decodedAf, hasAdaptationField_iff]

/-- The offset of R192 in the two spellings. -/
@[simp] theorem payloadOffset_decodedAf (p : Block 188) (tsh : Tsh) :
    payloadOffset (decodedAf p tsh) = offsetOf p tsh := by
  unfold decodedAf offsetOf
  split
  · simp only [payloadOffset, Af.numBytes, packetAf, parseAf]; omega
  · rfl

theorem four_le_offsetOf (p : Block 188) (tsh : Tsh) : 4 ≤ offsetOf p tsh := by
  unfold offsetOf; split <;> omega

@[simp] theorem length_packetPayload (p : Block 188) (offset : Nat) :
    (packetPayload p offset).length = 188 - offset := by simp [packetPayload, p.size]

@[simp] theorem getElem?_packetPayload (p : Block 188) (offset x : Nat) :
    (packetPayload p offset)[x]? = p.data[offset + x]? := by simp [packetPayload]

/-- TSH.PARSE on a good sync byte fixes every register (R132). -/
theorem parseTsh_eq_none_iff (p : Block 188) : parseTsh p = none ↔ p.byte 0 ≠ syncByte := by
  simp [parseTsh]

theorem parseTsh_syncByte {p : Block 188} {tsh : Tsh} (h : parseTsh p = some tsh) : tsh.syncByte = syncByte := by
  unfold parseTsh at h
  split at h
  · cases h; assumption
  · cases h

/-- Two bytes, the first one the more significant (R63). -/
theorem toNat_bytes2 (a b : Byte) : (a ++ b : BitVec 16).toNat = a.toNat * 256 + b.toNat := by
  show (a ++ b : BitVec (8 + 8)).toNat = _
  rw [BitVec.toNat_append, ← Nat.shiftLeft_add_eq_or_of_lt b.isLt, Nat.shiftLeft_eq]

/-- Three bytes, the first one the most significant (R63). -/
theorem toNat_bytes3 (a b c : Byte) :
    (a ++ b ++ c : BitVec 24).toNat = a.toNat * 65536 + b.toNat * 256 + c.toNat := by
  show ((a ++ b : BitVec (8 + 8)) ++ c : BitVec (8 + 8 + 8)).toNat = _
  rw [BitVec.toNat_append, ← Nat.shiftLeft_add_eq_or_of_lt c.isLt, Nat.shiftLeft_eq,
    show (a ++ b : BitVec (8 + 8)).toNat = _ from toNat_bytes2 a b]
  omega

/-! ### The decoders on their own -/

theorem exec_tshParse_of_invalid {p : Block 188} (h : parseTsh p = none) (s : State) :
    exec (.tshParse p) s = .next ((s.present Tsh.zero none).setResult .invalidSync) := by
  simp [exec, execTshParse, h, finish]

theorem exec_tshParse_of_parsed {p : Block 188} {tsh : Tsh} (h : parseTsh p = some tsh) (s : State) :
    exec (.tshParse p) s = finishUnstated (s.setTsh tsh) := by
  simp [exec, execTshParse, h]

theorem exec_afParse_of_invalid {afc : BitVec 2} (h : hasAdaptationField afc = false) (p : Block 188) (s : State) :
    exec (.afParse p afc) s = .next ((s.setAf none).setResult .invalidAfc) := by
  simp [exec, execAfParse, h, finish]

theorem exec_afParse_of_field {afc : BitVec 2} (h : hasAdaptationField afc = true) (p : Block 188) (s : State) :
    exec (.afParse p afc) s = finishUnstated (s.setAf (some (packetAf p))) := by
  simp [exec, execAfParse, h]

theorem exec_peshParse_of_parsed {bytes : List Byte} {h : PesHeader} (hb : parsePesHeader bytes = some h) (s : State) :
    exec (.peshParse bytes) s = finishUnstated (s.giveBack (.pesHeader h)) := by
  simp [exec, execPeshParse, hb]

theorem exec_peshParse_of_truncated {bytes : List Byte} (hb : parsePesHeader bytes = none) (s : State) :
    exec (.peshParse bytes) s = finishUnstated (s.giveBack .pesHeaderTruncated) := by
  simp [exec, execPeshParse, hb]

/-! ### PKT and PES.ABSORB -/

theorem exec_pkt_of_invalid {p : Block 188} (h : parseTsh p = none) (s : State) :
    exec (.pkt p) s = .next ((s.present Tsh.zero none).setResult .syncError) := by
  simp [exec, execPkt, h]

theorem exec_pkt_of_parsed {p : Block 188} {tsh : Tsh} (h : parseTsh p = some tsh) (s : State) :
    exec (.pkt p) s = commit (s.present tsh (decodedAf p tsh))
      (absorb s.cfg.bufCap p tsh (decodedAf p tsh) s.asm) := by
  simp [exec, execPkt, h, decodedAf_eq]

/-- PES.ABSORB on its own, where its operands come from the packet. -/
theorem exec_pesAbsorb_of_operands {p : Block 188} {s : State} (h : parseTsh p = some s.tsh)
    (haf : decodedAf p s.tsh ≠ none → s.af = decodedAf p s.tsh) :
    exec (.pesAbsorb p) s = commit s (absorb s.cfg.bufCap p s.tsh (decodedAf p s.tsh) s.asm) := by
  have hops : operandsFromPacket p s.tsh s.af = true ∧
      (if hasAdaptationField s.tsh.adaptationFieldControl then s.af else none) = decodedAf p s.tsh := by
    rw [← decodedAf_eq] at haf ⊢
    by_cases hf : hasAdaptationField s.tsh.adaptationFieldControl = true
    · simp_all [operandsFromPacket]
    · simp_all [operandsFromPacket]
  rw [exec, execPesAbsorb, hops.1, if_pos rfl, hops.2]

section absorb

variable {cap : Nat} {p : Block 188} {tsh : Tsh} {a : Asm}

theorem absorb_of_foreign (h : tsh.pid ≠ a.targetPid) (af : Option Af) :
    absorb cap p tsh af a = .ok (a, .unexpectedPid) := admitted_of_foreign h _

theorem absorb_of_misses (h : a.Misses tsh.pid tsh.continuityCounter) (af : Option Af) :
    absorb cap p tsh af a = .ok ((a.setStarted false).bufReset, .streamPacketLost) := admitted_of_misses h _

theorem absorb_of_start (h : a.Expects tsh.pid tsh.continuityCounter) (hu : tsh.payloadUnitStart = 1#1) :
    absorb cap p tsh (decodedAf p tsh) a
      = startPes cap (packetPayload p (offsetOf p tsh)) (a.recordCounter tsh.continuityCounter) := by
  simp [absorb, admitted_of_expects h, hu]

theorem absorb_of_continuation (h : a.Expects tsh.pid tsh.continuityCounter) (hu : tsh.payloadUnitStart = 0#1)
    (hp : CarriesPayload tsh) :
    absorb cap p tsh (decodedAf p tsh) a
      = continuePes cap (packetPayload p (offsetOf p tsh)) (a.recordCounter tsh.continuityCounter) := by
  simp [absorb, admitted_of_expects h, hu, (hasPayload_iff _).mpr hp]

theorem absorb_of_no_payload (h : a.Expects tsh.pid tsh.continuityCounter) (hu : tsh.payloadUnitStart = 0#1)
    (hp : ¬ CarriesPayload tsh) (af : Option Af) :
    absorb cap p tsh af a = .ok (a.recordCounter tsh.continuityCounter, .unexpectedPid) := by
  have : hasPayload tsh.adaptationFieldControl = false := by
    rw [Bool.eq_false_iff]; exact fun h => hp ((hasPayload_iff _).mp h)
  simp [absorb, admitted_of_expects h, hu, this, ignorePacket]

end absorb

/-- The completion check after an append (R200): the declared total, at least 7, implies the six bytes it asks for. -/
theorem Asm.complete_append_iff (a : Asm) (bs : List Byte) :
    (a.append bs).complete = true ↔ a.Reaches bs.length := by
  rw [Asm.complete_iff, Asm.append_bytesAccumulated, Asm.append_header, Asm.Reaches]
  exact ⟨fun x => x.2, fun x => ⟨by omega, x⟩⟩

/-- What a packet's three admission cases are, one of which always holds while the counter is known (R40 (b)). -/
theorem Asm.admission_cases {a : Asm} (hk : a.started = true → a.lastCC ≠ none) (pid : BitVec 13) (cc : BitVec 4) :
    pid ≠ a.targetPid ∨ a.Misses pid cc ∨ a.Expects pid cc := by
  by_cases h : pid = a.targetPid
  · by_cases hs : a.started = true
    · obtain ⟨last, hl⟩ := Option.ne_none_iff_exists'.mp (hk hs)
      by_cases hc : cc.toNat = (last.toNat + 1) % 16
      · exact .inr (.inr ⟨h, fun _ => ⟨last, hl, hc⟩⟩)
      · exact .inr (.inl ⟨h, hs, last, hl, hc⟩)
    · exact .inr (.inr ⟨h, fun hs' => absurd hs' hs⟩)
  · exact .inl h

/-! ### The step -/

/-- Everything taking the next request can do (R250, R253). -/
theorem fetch_ok_cases {s s' : State} {c : Command} (h : fetch s = .ok (c, s')) :
    (∃ rest, s.requests = .issue c :: rest ∧ s' = { s with requests := rest }) ∨
    (∃ rest, s.requests = .feed :: rest ∧ 188 ≤ s.stream.length ∧ c = .packet (s.stream.take 188) ∧
      s' = { s with requests := rest, stream := s.stream.drop 188, streamPos := s.streamPos + 188 }) := by
  unfold fetch at h
  split at h
  · cases h
  · rename_i hr; cases h; exact .inl ⟨_, hr, rfl⟩
  · rename_i hr
    split at h
    · cases h
    · cases h; exact .inr ⟨_, hr, by omega, rfl, rfl⟩

/-- A step that goes on is `exec` of a decoded operation. -/
theorem step_next_cases {s t : State} (h : step s = .next t) :
    ∃ c s' i, fetch s = .ok (c, s') ∧ decode c = .ok i ∧ exec i s' = .next t := by
  unfold step at h
  split at h
  · cases h
  · rename_i c s' hf
    split at h
    · cases h
    · rename_i i hd; exact ⟨c, s', i, hf, hd, h⟩

end Sys2Proof.Machine
end

