-- ==== Sys2Proof/Laws/PerInstr.lean ====
section
/-! SUPPORT. What holds of every operation as syntax, one lemma per constructor: the encoder presents blocks of exactly
188 bytes (spec 20_memory.md R61), so that the decoder never rejects one as truncated (44_packet_step.md R251). -/

namespace Sys2Proof.Laws.EncodedBlock

/-- The block a command presents, if it presents one. -/
def presented : Command → Option (List Byte)
  | .packet block => some block
  | .pkt block => some block
  | .tshParse block => some block
  | .afParse block _ => some block
  | .peshParse _ => none
  | .pesAbsorb block => some block
  | .esStrip => none
  | .reset _ => none

def Statement (i : Instr) : Prop := ∀ block, presented (encode i) = some block → block.length = 188

theorem length_encodePacket (u : BitVec 1) (c : BitVec 2) (h : HeaderFields) (body : Block 184) :
    (encodePacket u c h body).length = 188 := by simp [encodePacket, body.size]

theorem pktContAfc0 (h : HeaderFields) (body : Block 184) : Statement (.pktContAfc0 h body) :=
  fun _ e => Option.some.inj e ▸ length_encodePacket 0 0 h body
theorem pktContAfc1 (h : HeaderFields) (body : Block 184) : Statement (.pktContAfc1 h body) :=
  fun _ e => Option.some.inj e ▸ length_encodePacket 0 1 h body
theorem pktContAfc2 (h : HeaderFields) (body : Block 184) : Statement (.pktContAfc2 h body) :=
  fun _ e => Option.some.inj e ▸ length_encodePacket 0 2 h body
theorem pktContAfc3 (h : HeaderFields) (body : Block 184) : Statement (.pktContAfc3 h body) :=
  fun _ e => Option.some.inj e ▸ length_encodePacket 0 3 h body
theorem pktStartAfc0 (h : HeaderFields) (body : Block 184) : Statement (.pktStartAfc0 h body) :=
  fun _ e => Option.some.inj e ▸ length_encodePacket 1 0 h body
theorem pktStartAfc1 (h : HeaderFields) (body : Block 184) : Statement (.pktStartAfc1 h body) :=
  fun _ e => Option.some.inj e ▸ length_encodePacket 1 1 h body
theorem pktStartAfc2 (h : HeaderFields) (body : Block 184) : Statement (.pktStartAfc2 h body) :=
  fun _ e => Option.some.inj e ▸ length_encodePacket 1 2 h body
theorem pktStartAfc3 (h : HeaderFields) (body : Block 184) : Statement (.pktStartAfc3 h body) :=
  fun _ e => Option.some.inj e ▸ length_encodePacket 1 3 h body
theorem pktSyncErr (sync : Byte) (rest : Block 187) : Statement (.pktSyncErr sync rest) :=
  fun _ e => Option.some.inj e ▸ congrArg Nat.succ rest.size
theorem tshParse (p : Block 188) : Statement (.tshParse p) := fun _ e => Option.some.inj e ▸ p.size
theorem afParse (p : Block 188) (afc : BitVec 2) : Statement (.afParse p afc) := fun _ e => Option.some.inj e ▸ p.size
theorem peshParse (bytes : List Byte) : Statement (.peshParse bytes) := fun _ e => nomatch e
theorem esStrip : Statement .esStrip := fun _ e => nomatch e
theorem pesAbsorb (p : Block 188) : Statement (.pesAbsorb p) := fun _ e => Option.some.inj e ▸ p.size
theorem pkt (p : Block 188) : Statement (.pkt p) := fun _ e => Option.some.inj e ▸ p.size
theorem reset (pid : BitVec 13) : Statement (.reset pid) := fun _ e => nomatch e

end Sys2Proof.Laws.EncodedBlock
end

