-- ==== Sys2Proof/Tests/Slice0.lean ====
section
/-! SUPPORT. Tests: the WellFormed smoke, decodings of words written out from spec/30_encoding.md, single steps on the
vectors of spec/95_test_vectors.md, and for every obligation with hypotheses a witness that meets them. -/

namespace Sys2Proof.Tests

open Sys2Proof.Machine

/-! ### Helpers -/

def zeros (n : Nat) : List Byte := List.replicate n 0#8

/-- `P(n)` of 95_test_vectors.md section 2.4: `A0 A1 A2 ...`. -/
def ramp (n : Nat) : List Byte := (List.range n).map fun j => BitVec.ofNat 8 (0xA0 + j)

/-- A 188-byte block that begins with the given bytes; the rest is zero. -/
def pad (bytes : List Byte) : Block 188 := ⟨(bytes ++ zeros 188).take 188, by
  rw [List.length_take, List.length_append, zeros, List.length_replicate]; omega⟩

/-- A 184-byte body that begins with the given bytes. -/
def body (bytes : List Byte) : Block 184 := ⟨(bytes ++ zeros 184).take 184, by
  rw [List.length_take, List.length_append, zeros, List.length_replicate]; omega⟩

/-- The first `k` bytes of `PES(sid=0xC0, len=L, body=00 01 02 ...)`. -/
def pes (k len : Nat) : List Byte :=
  ([0x00, 0x00, 0x01, 0xC0, BitVec.ofNat 8 (len / 256), BitVec.ofNat 8 len]
    ++ (List.range k).map fun j => BitVec.ofNat 8 j).take k

/-- `Idle(c)` of section 2.4: PID 136. -/
def idle (cc : Option (BitVec 4)) : State := { State.reset with asm := { Asm.fresh 136 with lastCC := cc } }

/-- `Assembling(k, L, c)` of section 2.4: PID 136. -/
def assembling (k len : Nat) (cc : BitVec 4) : State :=
  { State.reset with asm := {
      targetPid := 136, buffer := cellsFrom 0 (pes k len), bytesAccumulated := k, lastCC := some cc
      started := true, header := ⟨1, 0xC0, BitVec.ofNat 16 len⟩ } }

/-- Idle with a held buffer. -/
def holding (bytes : List Byte) : State :=
  { State.reset with asm := { Asm.fresh 136 with buffer := cellsFrom 0 bytes, bytesAccumulated := bytes.length } }

/-- One step on one command. -/
def run (c : Command) (s : State) : Out := step { s with requests := [.issue c] }

/-- A packet of a stream whose first bytes are given, the rest the bytes that follow. -/
def packet (head rest : List Byte) : Command := .packet ((head ++ rest ++ zeros 188).take 188)

/-- What section 2.4 lists of the state after: outcome, state, `lastCC`, `bytesAccumulated`, declared length. -/
def seen : Out → Option (Result × Bool × Option (BitVec 4) × Nat × BitVec 16)
  | .next t => some (t.result, t.asm.started, t.asm.lastCC, t.asm.bytesAccumulated, t.asm.header.packetLength)
  | .fault _ => none
  | .refused _ => none

/-- The state after a step. -/
def after : Out → Option State
  | .next t => some t
  | .fault _ => none
  | .refused _ => none

/-- Why a step stopped. -/
def stopped : Out → Option (Fault ⊕ Refusal)
  | .next _ => none
  | .fault f => some (.inl f)
  | .refused r => some (.inr r)

/-- What an operation hands back to the host. -/
def handed : Out → Option Returned
  | .next t => some t.returned
  | .fault _ => none
  | .refused _ => none

/-- One byte of BUF after a step. -/
def byteAfter (o : Out) (x : Nat) : Option Byte :=
  match o with
  | .next t => Memory.read t.asm.buffer x
  | .fault _ => none
  | .refused _ => none

def H6 (len : Nat) : List Byte :=
  [0x00, 0x00, 0x01, 0xC0, BitVec.ofNat 8 (len / 256), BitVec.ofNat 8 len]

set_option maxRecDepth 10000

/-! ### WellFormed: R111, "applies when no other row matches, that is when W[31:24] != 0x47" -/

theorem test_wf_refuses_good_sync : (Instr.pktSyncErr 0x47 ⟨zeros 187, rfl⟩).wellFormed = false := by decide
theorem test_wf_accepts_bad_sync : (Instr.pktSyncErr 0x46 ⟨zeros 187, rfl⟩).wellFormed = true := by decide

/-! ### Decoding: words written out bit by bit from R91, R94, R97 and R111

The word is `01000111 e u p iiiii iiiiiiii ss aa cccc`. -/

/-- `01000111 1 0 0 10000 00000001 01 00 0110`: e, PID 4097, scrambling 1, class CONT.AFC0, counter 6. -/
theorem test_decode_cont_afc0 : decode (.packet (0b01000111#8 :: 0b10010000#8 :: 0b00000001#8 :: 0b01000110#8 :: zeros 184))
    = .ok (.pktContAfc0 ⟨1, 0, 4097, 1, 6⟩ (body [])) := by decide
/-- `01000111 0 0 1 00001 00000000 10 01 1000`: priority, PID 256, scrambling 2, class CONT.AFC1, counter 8. -/
theorem test_decode_cont_afc1 : decode (.packet (0b01000111#8 :: 0b00100001#8 :: 0b00000000#8 :: 0b10011000#8 :: zeros 184))
    = .ok (.pktContAfc1 ⟨0, 1, 256, 2, 8⟩ (body [])) := by decide
/-- V-TSH-13, `01000111 0 0 0 00000 10001000 00 10 1111`. -/
theorem test_decode_cont_afc2 : decode (.packet (0b01000111#8 :: 0b00000000#8 :: 0b10001000#8 :: 0b00101111#8 :: zeros 184))
    = .ok (.pktContAfc2 ⟨0, 0, 136, 0, 15⟩ (body [])) := by decide
/-- V-TSH-4, `01000111 0 0 0 11111 11111111 00 11 1111`. -/
theorem test_decode_cont_afc3 : decode (.packet (0b01000111#8 :: 0b00011111#8 :: 0b11111111#8 :: 0b00111111#8 :: zeros 184))
    = .ok (.pktContAfc3 ⟨0, 0, 8191, 0, 15⟩ (body [])) := by decide
/-- V-TSH-5, `01000111 1 1 1 00000 00000000 11 00 0000`. -/
theorem test_decode_start_afc0 : decode (.packet (0b01000111#8 :: 0b11100000#8 :: 0b00000000#8 :: 0b11000000#8 :: zeros 184))
    = .ok (.pktStartAfc0 ⟨1, 1, 0, 3, 0⟩ (body [])) := by decide
/-- V-TSH-1, `01000111 0 1 0 00000 10001000 00 01 0000`. -/
theorem test_decode_start_afc1 : decode (.packet (0b01000111#8 :: 0b01000000#8 :: 0b10001000#8 :: 0b00010000#8 :: zeros 184))
    = .ok (.pktStartAfc1 ⟨0, 0, 136, 0, 0⟩ (body [])) := by decide
/-- `01000111 0 1 0 10000 00000000 00 10 0001`. -/
theorem test_decode_start_afc2 : decode (.packet (0b01000111#8 :: 0b01010000#8 :: 0b00000000#8 :: 0b00100001#8 :: zeros 184))
    = .ok (.pktStartAfc2 ⟨0, 0, 4096, 0, 1⟩ (body [])) := by decide
/-- V-TSH-6, every bit one. -/
theorem test_decode_start_afc3 : decode (.packet (0b01000111#8 :: 0b11111111#8 :: 0b11111111#8 :: 0b11111111#8 :: zeros 184))
    = .ok (.pktStartAfc3 ⟨1, 1, 8191, 3, 15⟩ (body [])) := by decide
/-- V-TSH-15. -/
theorem test_decode_syncerr : decode (.packet (0b01001000#8 :: 0b01000000#8 :: 0b10001000#8 :: 0b00010000#8 :: zeros 184))
    = .ok (.pktSyncErr 0x48 ⟨0x40 :: 0x88 :: 0x10 :: zeros 184, rfl⟩) := by decide
/-- R251: a block of 187 bytes is no packet. -/
theorem test_decode_short : decode (.packet (0x47#8 :: zeros 186)) = .error .truncatedBlock := by decide
/-- D26: a longer buffer is read to address 187 only. -/
theorem test_decode_long : decode (.tshParse (zeros 189)) = .ok (.tshParse (pad [])) := by decide
/-- The table's words: 32, 16, 48 and 72 bits (log entries 12 and 14). -/
theorem test_table_words :
    decodeTableWord 32 0x47408810 = some (.pktStartAfc1 ⟨0, 0, 136, 0, 0⟩ (body [])) ∧
    decodeTableWord 16 0x0710 = some (.afParse (pad [0, 0, 0, 0, 0x07, 0x10]) 0) ∧
    decodeTableWord 48 0x000001C0012C = some (.peshParse [0x00, 0x00, 0x01, 0xC0, 0x01, 0x2C]) ∧
    decodeTableWord 72 0x000001DF000A800001 = some .esStrip ∧
    decodeTableWord 8 0 = none := by decide
/-- R135: encoder check of section 2.1. -/
theorem test_encode : encode (.pktContAfc3 ⟨0, 0, 8191, 0, 15⟩ (body []))
    = .packet (0x47 :: 0x1F :: 0xFF :: 0x3F :: zeros 184) := by decide

/-! ### One step: 95_test_vectors.md sections 2.1 to 2.6 -/

/-- V-ABS-21, row T8. -/
theorem test_cont_afc0 : seen (run (packet [0x47, 0x00, 0x88, 0x05] []) (assembling 184 300 4))
    = some (.unexpectedPid, true, some 5, 184, 300) := by decide
/-- V-ABS-6, row T9. -/
theorem test_cont_afc1_continue : seen (run (packet [0x47, 0x00, 0x88, 0x11] (ramp 184)) (assembling 184 1000 0))
    = some (.assemblingContinue, true, some 1, 368, 1000) := by decide
/-- V-ABS-24, row T10: overshoot. -/
theorem test_cont_afc1_overshoot : seen (run (packet [0x47, 0x00, 0x88, 0x16] (ramp 184)) (assembling 284 300 5))
    = some (.assemblingFinished, false, some 6, 468, 300) := by decide
/-- V-ABS-8, row T2: an adaptation-only packet that repeats the counter. -/
theorem test_cont_afc2_lost : seen (run (packet [0x47, 0x00, 0x88, 0x24, 0xB7, 0x00] []) (assembling 184 300 4))
    = some (.streamPacketLost, false, some 4, 0, 300) := by decide
/-- V-ABS-20, row T8. -/
theorem test_cont_afc2 : seen (run (packet [0x47, 0x00, 0x88, 0x25, 0xB7, 0x00] []) (assembling 184 300 4))
    = some (.unexpectedPid, true, some 5, 184, 300) := by decide
/-- V-ABS-23, row T10: exact completion, and the appended byte at 284. -/
theorem test_cont_afc3_finish :
    seen (run (packet ([0x47, 0x00, 0x88, 0x36, 0xA1, 0x00] ++ zeros 160) (ramp 22)) (assembling 284 300 5))
      = some (.assemblingFinished, false, some 6, 306, 300) ∧
    byteAfter (run (packet ([0x47, 0x00, 0x88, 0x36, 0xA1, 0x00] ++ zeros 160) (ramp 22)) (assembling 284 300 5)) 285
      = some 0xA1 := by decide
/-- V-ABS-26, row T9: an offset beyond the packet appends nothing. -/
theorem test_cont_afc3_nothing : seen (run (packet [0x47, 0x00, 0x88, 0x35, 0xC8, 0x00] []) (assembling 184 300 4))
    = some (.assemblingContinue, true, some 5, 184, 300) := by decide
/-- V-ABS-17, row T3. -/
theorem test_start_afc0 : seen (run (packet [0x47, 0x40, 0x88, 0x03] (H6 10 ++ ramp 178)) (idle (some 2)))
    = some (.assemblingStarted, true, some 3, 184, 10) := by decide
/-- V-ABS-12, row T6. -/
theorem test_start_afc1_abandons : seen (run (packet [0x47, 0x40, 0x88, 0x15] (H6 50 ++ ramp 178)) (assembling 184 300 4))
    = some (.assemblingStarted, true, some 5, 184, 50) := by decide
/-- V-ABS-10, row T2: a start with the wrong counter is not taken. -/
theorem test_start_afc1_lost : seen (run (packet [0x47, 0x40, 0x88, 0x19] (H6 50 ++ ramp 178)) (assembling 184 300 4))
    = some (.streamPacketLost, false, some 4, 0, 300) := by decide
/-- V-ABS-18, row T3: a start behind an adaptation field, with no payload announced. -/
theorem test_start_afc2 :
    seen (run (packet ([0x47, 0x40, 0x88, 0x23, 0x07, 0x00] ++ zeros 6) (H6 10 ++ ramp 170)) (idle (some 2)))
      = some (.assemblingStarted, true, some 3, 176, 10) := by decide
/-- V-ABS-14, row T7. -/
theorem test_start_afc2_no_header : seen (run (packet [0x47, 0x40, 0x88, 0x25, 0xB7, 0x00] []) (assembling 184 300 4))
    = some (.assemblingFinished, false, some 5, 0, 300) := by decide
/-- V-ABS-16, row T3: exactly six bytes. -/
theorem test_start_afc3_six_bytes :
    seen (run (packet ([0x47, 0x40, 0x88, 0x33, 0xB1, 0x00] ++ zeros 176) (H6 4)) (idle (some 2)))
      = some (.assemblingStarted, true, some 3, 6, 4) := by decide
/-- V-ABS-13, row T4: five bytes. -/
theorem test_start_afc3_five_bytes : seen (run (packet [0x47, 0x40, 0x88, 0x33, 0xB2, 0x00] []) (idle (some 2)))
    = some (.unexpectedPid, false, some 3, 0, 0) := by decide
/-- V-PKT-1. -/
theorem test_syncerr : seen (run (packet [0x46, 0x00, 0x88, 0x15] (ramp 184)) (assembling 184 300 4))
    = some (.syncError, true, some 4, 184, 300) := by decide
/-- V-TSH-6. -/
theorem test_tsh_parse : (after (run (.tshParse (pad [0x47, 0xFF, 0xFF, 0xFF]).data) (idle none))).map
    (fun t => (t.tsh, t.af, t.asm)) = some (⟨0x47, 1, 1, 1, 8191, 3, 3, 15⟩, none, (idle none).asm) := by decide
/-- V-TSH-15. -/
theorem test_tsh_parse_fails : after (run (.tshParse (pad [0x48, 0x40, 0x88, 0x10]).data) (idle none))
    = some { idle none with result := .invalidSync } := by decide
/-- V-AF-12. -/
theorem test_af_parse : (after (run (.afParse (pad [0, 0, 0, 0, 0xB8, 0x2A]).data 2) (idle none))).map
    (fun t => (t.tsh, t.af, t.asm))
      = some (Tsh.zero, some ⟨184, 0, 0, 1, 0, 1, 0, 1, 0⟩, (idle none).asm) := by decide
/-- V-AF-13. -/
theorem test_af_parse_fails : after (run (.afParse (pad [0, 0, 0, 0, 0x07, 0x10]).data 1) (idle none))
    = some { idle none with result := .invalidAfc } := by decide
/-- V-PESH-4. -/
theorem test_pesh_parse : handed (run (.peshParse ([0x12, 0x34, 0x56, 0x78, 0x9A, 0xBC] ++ zeros 94)) (idle none))
    = some (.pesHeader ⟨0x123456, 0x78, 39612⟩) := by decide
/-- V-PESH-9. -/
theorem test_pesh_parse_truncated : handed (run (.peshParse [0x00, 0x00, 0x01, 0xC0, 0x01]) (idle none))
    = some .pesHeaderTruncated := by decide
/-- V-ABS-5, row T9, with TSH and AF decoded from the packet before. -/
theorem test_pes_absorb :
    seen (run (.pesAbsorb (pad ([0x47, 0x00, 0x88, 0x30, 0x53, 0x00] ++ zeros 82 ++ ramp 100)).data)
      { assembling 184 300 15 with
        tsh := ⟨0x47, 0, 0, 0, 136, 0, 3, 0⟩, af := some ⟨83, 0, 0, 0, 0, 0, 0, 0, 0⟩ })
      = some (.assemblingContinue, true, some 0, 284, 300) := by decide
/-- R245, log entry 7. -/
theorem test_pes_absorb_foreign_operands :
    stopped (run (.pesAbsorb (pad [0x47, 0x00, 0x88, 0x30]).data) (assembling 184 300 15))
      = some (.inr .operandsNotFromPacket) := by decide
/-- V-PKT-3. -/
theorem test_pkt :
    seen (run (.pkt (pad ([0x47, 0x40, 0x88, 0x30, 0x07, 0x10] ++ zeros 6 ++ H6 300 ++ ramp 170)).data) (idle none))
      = some (.assemblingStarted, true, some 0, 176, 300) := by decide
/-- The note under V-ABS-27: 368 + 184 bytes in a buffer of 400. -/
theorem test_pkt_overflow :
    stopped (run (.pkt (pad ([0x47, 0x00, 0x88, 0x16] ++ ramp 184)).data)
      { assembling 368 0 5 with cfg := { bufCap := 400 } }) = some (.inl .bufferOverflow) := by decide
/-- V-RST-1. -/
theorem test_reset : after (run (.reset 200) (assembling 184 300 4))
    = some { State.reset with asm := Asm.fresh 200 } := by decide
/-- V-ES-4. -/
theorem test_es_strip :
    handed (run .esStrip (holding [0x00, 0x00, 0x01, 0xDF, 0x00, 0x0A, 0x80, 0x00, 0x01, 1, 2, 3, 4, 5, 6, 7]))
      = some (.esChunk [2, 3, 4, 5, 6, 7]) := by decide
/-- V-ES-9. -/
theorem test_es_strip_beyond :
    handed (run .esStrip (holding [0x00, 0x00, 0x01, 0xC0, 0x00, 0x04, 0x80, 0x80, 0xFF, 0x21]))
      = some .headerBeyondBuffer := by decide

/-- R250: a feed presents the next 188 bytes of the stream. -/
theorem test_feed :
    (match step { idle none with requests := [.feed], stream := (pad [0x47, 0x00, 0x89, 0x10]).data ++ zeros 5 } with
      | .next t => some (t.result, t.stream.length, t.streamPos)
      | .fault _ => none
      | .refused _ => none) = some (.unexpectedPid, 5, 188) := by decide
/-- A table word runs as the first operation after reset. -/
theorem test_fetch_word :
    seen (step (State.reset.withFetchWord 32 0x47400010)) = some (.assemblingStarted, true, some 0, 184, 0) := by decide

/-! ### Witnesses: concrete states and operands that meet the hypotheses of each obligation -/

/-- The header registers of a packet with the four bits that are ignored zero. -/
def header (u : BitVec 1) (pid : BitVec 13) (c : BitVec 2) (cc : BitVec 4) : Tsh := ⟨0x47, 0, u, 0, pid, 0, c, cc⟩

/-- The operand fields of a class, likewise. -/
def fields (pid : BitVec 13) (cc : BitVec 4) : HeaderFields := ⟨0, 0, pid, 0, cc⟩

/-- The six bytes a start with `AF.length = 177` leaves (V-ABS-16), with a request behind it. -/
def six (c : Command) : State := { assembling 6 4 3 with requests := [.issue c] }

theorem six_expects : (assembling 6 4 3).asm.Expects 136 4 := ⟨rfl, fun _ => ⟨3, rfl, rfl⟩⟩
theorem six_misses : (assembling 6 4 3).asm.Misses 136 5 := ⟨rfl, rfl, 3, rfl, by decide⟩
theorem wrap_expects : (assembling 6 4 15).asm.Expects 136 0 := ⟨rfl, fun _ => ⟨15, rfl, rfl⟩⟩
theorem idle_expects (cc : Option (BitVec 4)) : (idle cc).asm.Expects 136 9 := ⟨rfl, fun h => nomatch h⟩

theorem six_asm_inv : (assembling 6 4 3).asm.Inv 65724 where
  fits := by decide
  exactBuffer := by decide
  counterKnown := by decide
  headerHeld := by decide
  headerRead := fun _ => ⟨H6 4, by decide, by decide⟩
  unfinished := by decide
  finished := by decide
  bounded := by decide

theorem six_inv (c : Command) : (six c).Inv :=
  ⟨(by decide : (assembling 6 4 3).cfg.Legal), six_asm_inv, .inl rfl, rfl⟩

/-- AFC 2 announces no payload. -/
theorem no_payload : ¬ CarriesPayload (header 0 136 2 4) :=
  (by decide : ¬ ((2#2 : BitVec 2) = 1#2 ∨ (2#2 : BitVec 2) = 3#2))

theorem witness_DecodeEncodeRoundTrip : (Instr.pktSyncErr 0x48 ⟨zeros 187, rfl⟩).wellFormed = true ∧
    (Instr.pktStartAfc3 ⟨1, 1, 8191, 3, 15⟩ (body [])).wellFormed = true := by decide
theorem witness_EveryPacketDecodesAndReencodes : (pad [0x47, 0x40, 0x88, 0x10]).data.length = 188 := by decide
/-- One header word for each of the nine clauses, with the don't-care bits at 0 or 1. -/
theorem witness_HeaderWordSelectsClass :
    (0x47#8 ++ 0x00#8 ++ 0x00#8 ++ 0x00#8 : BitVec 32) &&& 0xFF400030#32 = 0x47000000#32 ∧
    (0x47#8 ++ 0xBF#8 ++ 0xFF#8 ++ 0xDF#8 : BitVec 32) &&& 0xFF400030#32 = 0x47000010#32 ∧
    (0x47#8 ++ 0x00#8 ++ 0x00#8 ++ 0x20#8 : BitVec 32) &&& 0xFF400030#32 = 0x47000020#32 ∧
    (0x47#8 ++ 0xBF#8 ++ 0xFF#8 ++ 0xFF#8 : BitVec 32) &&& 0xFF400030#32 = 0x47000030#32 ∧
    (0x47#8 ++ 0x40#8 ++ 0x00#8 ++ 0x00#8 : BitVec 32) &&& 0xFF400030#32 = 0x47400000#32 ∧
    (0x47#8 ++ 0xFF#8 ++ 0xFF#8 ++ 0xDF#8 : BitVec 32) &&& 0xFF400030#32 = 0x47400010#32 ∧
    (0x47#8 ++ 0x40#8 ++ 0x00#8 ++ 0x20#8 : BitVec 32) &&& 0xFF400030#32 = 0x47400020#32 ∧
    (0x47#8 ++ 0xFF#8 ++ 0xFF#8 ++ 0xFF#8 : BitVec 32) &&& 0xFF400030#32 = 0x47400030#32 ∧
    (0x46#8 ++ 0x40#8 ++ 0x88#8 ++ 0x10#8 : BitVec 32).extractLsb' 24 8 ≠ 0x47#8 := by decide
theorem witness_TshParseReadsEveryField : (pad [0x47, 0xFF, 0xFF, 0xFF]).byte 0 = 0x47#8 := by decide
theorem witness_TshParseFailureZeroesHeader : (pad [0x48, 0x40, 0x88, 0x10]).byte 0 ≠ 0x47#8 := by decide
theorem witness_FailedTshParseClearsAf : (pad [0xB8, 0x1F, 0xFF, 0x3F]).byte 0 ≠ 0x47#8 := by decide
theorem witness_AfParseReadsLengthAndFlags : ((2#2 : BitVec 2) = 2#2 ∨ (2#2 : BitVec 2) = 3#2) ∧
    ((3#2 : BitVec 2) = 2#2 ∨ (3#2 : BitVec 2) = 3#2) := by decide
/-- Both sides of the equivalence: an `afc` of 1 and of 2. -/
theorem witness_AfParseInvalidAfcExactlyOnZeroOrOne : ((1#2 : BitVec 2) = 0#2 ∨ (1#2 : BitVec 2) = 1#2) ∧
    ¬ ((2#2 : BitVec 2) = 0#2 ∨ (2#2 : BitVec 2) = 1#2) := by decide
/-- Both clauses, at 5 and at 6 bytes. -/
theorem witness_PeshParseTruncatedBelowSix : (zeros 5).length < 6 ∧ 6 ≤ (zeros 6).length := by decide
/-- Each clause: both decoders failing, and ES.STRIP. -/
theorem witness_DecoderErrorsStandAfterTheirDecoderOnly :
    (after (exec (.tshParse (pad [0x48])) (idle none))).map State.result = some .invalidSync ∧
    (after (exec (.afParse (pad [0x47]) 1) (idle none))).map State.result = some .invalidAfc ∧
    (after (exec (.peshParse []) { idle none with result := .invalidSync })).isSome ∧
    (after (exec .esStrip { idle none with result := .invalidSync })).map State.result = some .invalidSync := by decide
theorem witness_SyncErrorLeavesAssembler : (pad [0x46, 0x00, 0x88, 0x15]).byte 0 ≠ 0x47#8 := by decide
theorem witness_ForeignPidLeavesAssembler : parseTsh (pad [0x47, 0x00, 0x89, 0x19]) = some (header 0 137 1 9) ∧
    (header 0 137 1 9).pid ≠ (assembling 6 4 3).asm.targetPid := by decide
/-- Both clauses: a mismatch, and a packet whose result is StreamPacketLost. -/
theorem witness_CounterMismatchDropsAssembly : parseTsh (pad [0x47, 0x00, 0x88, 0x15]) = some (header 0 136 1 5) ∧
    (assembling 6 4 3).asm.Misses 136 5 ∧
    (after (exec (.pkt (pad [0x47, 0x00, 0x88, 0x15])) (assembling 6 4 3))).map State.result = some .streamPacketLost :=
  ⟨by decide, six_misses, by decide⟩
/-- Each of the four causes gives a next state: another PID; Idle and a continuation; Assembling without payload; Idle and
a start at offset 183. -/
theorem witness_UnexpectedPidHasFourCauses :
    (after (exec (.pkt (pad [0x47, 0x00, 0x89, 0x19])) (assembling 6 4 3))).map State.result = some .unexpectedPid ∧
    (after (exec (.pkt (pad [0x47, 0x00, 0x88, 0x19])) (idle none))).map State.result = some .unexpectedPid ∧
    (after (exec (.pkt (pad [0x47, 0x00, 0x88, 0x24])) (assembling 6 4 3))).map State.result = some .unexpectedPid ∧
    (after (exec (.pkt (pad [0x47, 0x40, 0x88, 0x39, 0xB2])) (idle none))).map State.result = some .unexpectedPid := by
  decide
/-- At the largest offset that leaves a header, 182, with exactly its six bytes of room, and the counter wrapping. -/
theorem witness_StartOpensAssembly : parseTsh (pad [0x47, 0x40, 0x88, 0x30, 0xB1]) = some (header 1 136 3 0) ∧
    (assembling 6 4 15).asm.Expects 136 0 ∧ offsetOf (pad [0x47, 0x40, 0x88, 0x30, 0xB1]) (header 1 136 3 0) = 182 ∧
    188 - 182 ≤ 6 := ⟨by decide, wrap_expects, by decide, by decide⟩
/-- At the smallest offset that leaves none, 183, while Idle and while Assembling. -/
theorem witness_StartWithoutHeaderGoesIdle : parseTsh (pad [0x47, 0x40, 0x88, 0x39, 0xB2]) = some (header 1 136 3 9) ∧
    (idle none).asm.Expects 136 9 ∧ offsetOf (pad [0x47, 0x40, 0x88, 0x39, 0xB2]) (header 1 136 3 9) = 183 ∧
    parseTsh (pad [0x47, 0x40, 0x88, 0x34, 0xB2]) = some (header 1 136 3 4) ∧
    (assembling 6 4 3).asm.Expects 136 4 ∧ offsetOf (pad [0x47, 0x40, 0x88, 0x34, 0xB2]) (header 1 136 3 4) = 183 :=
  ⟨by decide, idle_expects none, by decide, by decide, six_expects, by decide⟩
/-- Idle with payload, and Assembling without. -/
theorem witness_NothingToDoRecordsCounterOnly : parseTsh (pad [0x47, 0x00, 0x88, 0x19]) = some (header 0 136 1 9) ∧
    (idle (some 2)).asm.Expects 136 9 ∧ (idle (some 2)).asm.started = false ∧
    parseTsh (pad [0x47, 0x00, 0x88, 0x24]) = some (header 0 136 2 4) ∧ (assembling 6 4 3).asm.Expects 136 4 ∧
    ¬ CarriesPayload (header 0 136 2 4) :=
  ⟨by decide, idle_expects _, rfl, by decide, six_expects, no_payload⟩
/-- One byte short of the declared total, and exactly at it: three and four more bytes for a total of ten. -/
theorem witness_ContinuationAppendsAndCompletes :
    parseTsh (pad [0x47, 0x00, 0x88, 0x34, 0xB4]) = some (header 0 136 3 4) ∧ (assembling 6 4 3).asm.Expects 136 4 ∧
    (assembling 6 4 3).asm.started = true ∧ CarriesPayload (header 0 136 3 4) ∧
    6 + (188 - offsetOf (pad [0x47, 0x00, 0x88, 0x34, 0xB4]) (header 0 136 3 4)) = 9 ∧
    ¬ (assembling 6 4 3).asm.Reaches 3 ∧ (assembling 6 4 3).asm.Reaches 4 :=
  ⟨by decide, six_expects, rfl, .inr rfl, by decide, fun h => absurd h.2 (by decide), by decide, by decide⟩
/-- A start of six bytes with room for five, and a continuation of 184 with room for 189 in all. -/
theorem witness_AppendBeyondCapacityFaults :
    parseTsh (pad [0x47, 0x40, 0x88, 0x34, 0xB1]) = some (header 1 136 3 4) ∧ (assembling 6 4 3).asm.Expects 136 4 ∧
    offsetOf (pad [0x47, 0x40, 0x88, 0x34, 0xB1]) (header 1 136 3 4) = 182 ∧ 5 < 188 - 182 ∧
    parseTsh (pad [0x47, 0x00, 0x88, 0x14]) = some (header 0 136 1 4) ∧ CarriesPayload (header 0 136 1 4) ∧
    189 < (assembling 6 4 3).asm.bytesAccumulated + (188 - offsetOf (pad [0x47, 0x00, 0x88, 0x14]) (header 0 136 1 4)) :=
  ⟨by decide, six_expects, by decide, by decide, by decide, .inl rfl, by decide⟩
theorem witness_TransitionRowsAreExclusiveAndComplete :
    (assembling 6 4 3).asm.started = true → (assembling 6 4 3).asm.lastCC ≠ none := by decide

/-- A row of R205 with its premises: the packet, the registers decoded from it, and the assembler. -/
structure RowWitness (p : Block 188) (tsh : Tsh) (a : Asm) (n : Nat) : Prop where
  parsed : parseTsh p = some tsh
  room : RoomFor 65724 p tsh a
  guarded : rowGuard p tsh a n

/-- Every row of the table, the offsets at 182 and 183 and the totals at and below the declared one. -/
theorem witness_AbsorbFollowsTransitionTable :
    RowWitness (pad [0x47, 0x00, 0x89, 0x14]) (header 0 137 1 4) (assembling 6 4 3).asm 1 ∧
    RowWitness (pad [0x47, 0x00, 0x88, 0x15]) (header 0 136 1 5) (assembling 6 4 3).asm 2 ∧
    RowWitness (pad [0x47, 0x40, 0x88, 0x39, 0xB1]) (header 1 136 3 9) (idle none).asm 3 ∧
    RowWitness (pad [0x47, 0x40, 0x88, 0x39, 0xB2]) (header 1 136 3 9) (idle none).asm 4 ∧
    RowWitness (pad [0x47, 0x00, 0x88, 0x19]) (header 0 136 1 9) (idle none).asm 5 ∧
    RowWitness (pad [0x47, 0x40, 0x88, 0x34, 0xB1]) (header 1 136 3 4) (assembling 6 4 3).asm 6 ∧
    RowWitness (pad [0x47, 0x40, 0x88, 0x34, 0xB2]) (header 1 136 3 4) (assembling 6 4 3).asm 7 ∧
    RowWitness (pad [0x47, 0x00, 0x88, 0x24]) (header 0 136 2 4) (assembling 6 4 3).asm 8 ∧
    RowWitness (pad [0x47, 0x00, 0x88, 0x34, 0xB4]) (header 0 136 3 4) (assembling 6 4 3).asm 9 ∧
    RowWitness (pad [0x47, 0x00, 0x88, 0x34, 0xB3]) (header 0 136 3 4) (assembling 6 4 3).asm 10 :=
  ⟨⟨by decide, ⟨by decide, by decide⟩, (by decide : (137#13 : BitVec 13) ≠ 136#13)⟩,
   ⟨by decide, ⟨by decide, by decide⟩, six_misses⟩,
   ⟨by decide, ⟨by decide, by decide⟩, rfl, idle_expects none, rfl, by decide⟩,
   ⟨by decide, ⟨by decide, by decide⟩, rfl, idle_expects none, rfl, by decide⟩,
   ⟨by decide, ⟨by decide, by decide⟩, rfl, idle_expects none, rfl⟩,
   ⟨by decide, ⟨by decide, by decide⟩, rfl, six_expects, rfl, by decide⟩,
   ⟨by decide, ⟨by decide, by decide⟩, rfl, six_expects, rfl, by decide⟩,
   ⟨by decide, ⟨by decide, by decide⟩, rfl, six_expects, rfl, no_payload⟩,
   ⟨by decide, ⟨by decide, by decide⟩, rfl, six_expects, rfl, .inr rfl, fun h => absurd h.2 (by decide)⟩,
   ⟨by decide, ⟨by decide, by decide⟩, rfl, six_expects, rfl, .inr rfl, by decide, by decide⟩⟩
/-- TSH from elsewhere; and TSH from the packet with AF missing. -/
theorem witness_AbsorbRefusesForeignOperands :
    parseTsh (pad [0x47, 0x00, 0x88, 0x30]) ≠ some (assembling 6 4 3).tsh ∧
    decodedAf (pad [0x47, 0x00, 0x88, 0x30]) (header 0 136 3 0) ≠ none ∧
    none ≠ decodedAf (pad [0x47, 0x00, 0x88, 0x30]) (header 0 136 3 0) := by decide
theorem witness_ContinuationClassesWithoutPayload : (assembling 6 4 3).asm.Expects (fields 136 4).pid 4 ∧
    (idle none).asm.Expects (fields 136 9).pid 9 := ⟨six_expects, idle_expects none⟩
/-- Idle; and Assembling with 6 + 184 bytes filling the buffer exactly. -/
theorem witness_ContinuationClassWithPlainPayload : (idle none).asm.Expects (fields 136 9).pid 9 ∧
    (idle none).asm.started = false ∧ (assembling 6 4 3).asm.Expects (fields 136 4).pid 4 ∧
    (assembling 6 4 3).asm.started = true ∧ (assembling 6 4 3).asm.bytesAccumulated + 184 ≤ 190 :=
  ⟨idle_expects none, rfl, six_expects, rfl, by decide⟩
/-- Idle; and Assembling with `AF.length` 182, which leaves one byte, and 183, which leaves none. -/
theorem witness_ContinuationClassBehindAdaptation : (idle none).asm.started = false ∧
    (assembling 6 4 3).asm.started = true ∧ (assembling 6 4 3).asm.Expects (fields 136 4).pid 4 ∧
    (assembling 6 4 3).asm.bytesAccumulated + (183 - ((body [182]).byte 0).toNat) ≤ 7 ∧
    (assembling 6 4 3).asm.bytesAccumulated + (183 - ((body [183]).byte 0).toNat) ≤ 6 :=
  ⟨rfl, rfl, six_expects, by decide, by decide⟩
theorem witness_PlainStartClassesOpenAssembly : (idle none).asm.Expects (fields 136 9).pid 9 ∧
    184 ≤ (idle none).cfg.bufCap := ⟨idle_expects none, by decide⟩
/-- Both clauses, at `AF.length` 177 and 178. -/
theorem witness_AdaptedStartClasses : (assembling 6 4 3).asm.Expects (fields 136 4).pid 4 ∧
    ((body [177]).byte 0).toNat ≤ 177 ∧ 183 - 177 ≤ 6 ∧ 178 ≤ ((body [178]).byte 0).toNat :=
  ⟨six_expects, by decide, by decide, by decide⟩
theorem witness_ClassesFilterAndDetectLoss : (fields 137 4).pid ≠ (assembling 6 4 3).asm.targetPid ∧
    (assembling 6 4 3).asm.Misses (fields 136 5).pid 5 := ⟨by decide, six_misses⟩
theorem witness_ClassAgreesWithComposite : decode (.packet (pad [0x47, 0x40, 0x88, 0x10]).data)
    = .ok (.pktStartAfc1 (fields 136 0) (body [])) := by decide
/-- With an adaptation field and without. -/
theorem witness_CompositeIsDecodersThenAbsorb :
    parseTsh (pad [0x47, 0x40, 0x88, 0x30, 0x07]) = some (header 1 136 3 0) ∧
    (after (exec (.tshParse (pad [0x47, 0x40, 0x88, 0x30, 0x07])) (idle none))).isSome ∧
    decodedAf (pad [0x47, 0x40, 0x88, 0x30, 0x07]) (header 1 136 3 0) ≠ none ∧
    (after (exec (.afParse (pad [0x47, 0x40, 0x88, 0x30, 0x07]) 3) (idle none))).isSome ∧
    parseTsh (pad [0x47, 0x40, 0x88, 0x10]) = some (header 1 136 1 0) ∧
    decodedAf (pad [0x47, 0x40, 0x88, 0x10]) (header 1 136 1 0) = none := by decide
theorem witness_ResetForgetsThePast : (assembling 6 4 3).cfg = (idle none).cfg ∧
    (after (exec (.reset 200) (assembling 6 4 3))).isSome ∧ (after (exec (.reset 200) (idle none))).isSome := by decide
theorem witness_OnlyResetChangesTargetPid :
    (after (exec (.pkt (pad [0x47, 0x40, 0x88, 0x14])) (assembling 6 4 3))).isSome ∧
    (after (exec (.reset 200) (assembling 6 4 3))).isSome := by decide
/-- Each clause: a start while Idle, a completion and a loss while Assembling, RESET, and a continuation. -/
theorem witness_OnlyTheseEventsChangeTheState :
    seen (exec (.pkt (pad [0x47, 0x40, 0x88, 0x10])) (idle none)) = some (.assemblingStarted, true, some 0, 184, 0) ∧
    seen (exec (.pkt (pad [0x47, 0x00, 0x88, 0x14])) (assembling 6 4 3)) = some (.assemblingFinished, false, some 4, 190, 4) ∧
    seen (exec (.pkt (pad [0x47, 0x00, 0x88, 0x15])) (assembling 6 4 3)) = some (.streamPacketLost, false, some 3, 0, 4) ∧
    seen (exec (.reset 136) (assembling 6 4 3)) = some (.noResult, false, none, 0, 0) ∧
    seen (exec (.pkt (pad [0x47, 0x00, 0x88, 0x14])) (assembling 6 0 3)) = some (.assemblingContinue, true, some 4, 190, 0) :=
  ⟨by decide, by decide, by decide, by decide, by decide⟩
theorem witness_RegisterGroupsHaveTheirWriters :
    (after (exec (.tshParse (pad [0x47])) (assembling 6 4 3))).isSome ∧
    (after (exec (.afParse (pad [0x47]) 2) (assembling 6 4 3))).isSome ∧
    (after (exec (.peshParse []) (assembling 6 4 3))).isSome ∧ (after (exec .esStrip (assembling 6 4 3))).isSome ∧
    (after (exec (.pesAbsorb (pad [0x47, 0x00, 0x88, 0x14])) { assembling 6 4 3 with tsh := header 0 136 1 4 })).isSome := by
  decide
/-- A listed stream id with nine bytes whose header of nine ends exactly at the buffer's end; one whose header of ten passes
it; the ids on both sides of the range; eight bytes. -/
theorem witness_EsStripReturnsBytesAfterHeader :
    (holding [0, 0, 1, 0xC0, 0, 3, 0x80, 0x80, 0]).asm.BufferExact ∧
    6 ≤ (holding [0, 0, 1, 0xC0, 0, 3, 0x80, 0x80, 0]).asm.bytesAccumulated ∧
    Memory.read (holding [0, 0, 1, 0xC0, 0, 3, 0x80, 0x80, 0]).asm.buffer 3 = some 0xC0 ∧
    Memory.read (holding [0, 0, 1, 0xC0, 0, 3, 0x80, 0x80, 0]).asm.buffer 8 = some 0 ∧
    9 + 0 ≤ (holding [0, 0, 1, 0xC0, 0, 3, 0x80, 0x80, 0]).asm.bytesAccumulated ∧
    Memory.read (holding [0, 0, 1, 0xDF, 0, 3, 0x80, 0x80, 1]).asm.buffer 8 = some 1 ∧
    (holding [0, 0, 1, 0xDF, 0, 3, 0x80, 0x80, 1]).asm.bytesAccumulated < 9 + 1 ∧
    Memory.read (holding [0, 0, 1, 0xE0, 0, 0]).asm.buffer 3 = some 0xE0 ∧ ¬ (0xE0 : Nat) ≤ 0xDF ∧
    Memory.read (holding [0, 0, 1, 0xBF, 0, 0]).asm.buffer 3 = some 0xBF ∧ ¬ 0xC0 ≤ (0xBF : Nat) ∧
    ¬ 9 ≤ (holding [0, 0, 1, 0xBD, 0, 2, 0x80, 0x80]).asm.bytesAccumulated := by decide
theorem witness_EsStripNeedsSixBytes : (holding [0, 0, 1, 0xC0, 0]).asm.bytesAccumulated < 6 := by decide
/-- Both clauses, at the last byte and just above it. -/
theorem witness_ReadPortEndsAtLength : (assembling 6 4 3).asm.BufferExact ∧
    5 < (assembling 6 4 3).asm.bytesAccumulated ∧ (assembling 6 4 3).asm.bytesAccumulated ≤ 6 := by decide
theorem witness_StepRunsDecodedRequest :
    (six .esStrip).requests = [.issue .esStrip] ∧ decode .esStrip = .ok .esStrip ∧
    188 ≤ (pad [0x47, 0x40, 0x88, 0x10]).data.length ∧
    decode (.packet ((pad [0x47, 0x40, 0x88, 0x10]).data.take 188)) = .ok (.pktStartAfc1 (fields 136 0) (body [])) := by
  decide
/-- Both clauses, at 188 and at 187 bytes. -/
theorem witness_FramingIsByCountingAlone :
    188 ≤ (zeros 188).length ∧
    (after (step { idle none with requests := [.feed], stream := zeros 188 })).isSome ∧ (zeros 187).length < 188 := by
  decide
theorem witness_FeedingIsTheFoldOfPackets :
    ({ idle none with requests := [.feed, .feed], stream := zeros 376 } : State).requests
      = List.replicate [pad [], pad []].length .feed ++ [] ∧
    ({ idle none with requests := [.feed, .feed], stream := zeros 376 } : State).stream
      = [pad [], pad []].flatMap Block.data ++ [] := by decide
theorem witness_ShortBlocksAreRefused : (zeros 187).length < 188 ∧
    Command.pkt (zeros 187) ∈ [Command.packet (zeros 187), .pkt (zeros 187), .tshParse (zeros 187),
      .afParse (zeros 187) 2, .pesAbsorb (zeros 187)] ∧
    (six (.pkt (zeros 187))).requests = [.issue (.pkt (zeros 187))] := by decide
theorem witness_StepKeepsInvariant : (six (.pkt (pad [0x47, 0x00, 0x88, 0x14]).data)).Inv ∧
    (after (step (six (.pkt (pad [0x47, 0x00, 0x88, 0x14]).data)))).isSome := ⟨six_inv _, by decide⟩
theorem witness_PktIsTotal : (six .esStrip).Inv := six_inv _
theorem witness_BoundedPacketsNeverOverflow : (six .esStrip).Inv ∧ 65724 ≤ (six .esStrip).cfg.bufCap ∧
    ((six .esStrip).asm.started = true → (six .esStrip).asm.header.packetLength ≠ 0) :=
  ⟨six_inv _, by decide, by decide⟩
theorem witness_UnboundedPacketsNeverFinishByLength :
    parseTsh (pad [0x47, 0x00, 0x88, 0x14]) = some (header 0 136 1 4) ∧ (assembling 6 0 3).asm.header.packetLength = 0 ∧
    (after (exec (.pkt (pad [0x47, 0x00, 0x88, 0x14])) (assembling 6 0 3))).isSome := by decide
theorem witness_FinishedBufferSurvivesUntilNextStart : (holding (pes 10 4)).asm.started = false ∧
    parseTsh (pad [0x47, 0x00, 0x88, 0x14]) = some (header 0 136 1 4) ∧ (header 0 136 1 4).payloadUnitStart = 0 ∧
    (after (exec (.pkt (pad [0x47, 0x00, 0x88, 0x14])) (holding (pes 10 4)))).isSome := by decide
theorem witness_IgnoredHeaderBitsDoNotMatter :
    (pad [0x47, 0x00, 0x88, 0x15, 1]).byte 0 = (pad [0x47, 0xA0, 0x88, 0xD5, 1]).byte 0 ∧
    (pad [0x47, 0x00, 0x88, 0x15, 1]).byte 1 &&& 0x5F#8 = (pad [0x47, 0xA0, 0x88, 0xD5, 1]).byte 1 &&& 0x5F#8 ∧
    (pad [0x47, 0x00, 0x88, 0x15, 1]).byte 2 = (pad [0x47, 0xA0, 0x88, 0xD5, 1]).byte 2 ∧
    (pad [0x47, 0x00, 0x88, 0x15, 1]).byte 3 &&& 0x3F#8 = (pad [0x47, 0xA0, 0x88, 0xD5, 1]).byte 3 &&& 0x3F#8 ∧
    (pad [0x47, 0x00, 0x88, 0x15, 1]).data.drop 4 = (pad [0x47, 0xA0, 0x88, 0xD5, 1]).data.drop 4 := by decide
theorem witness_AdaptationFlagsDoNotMatter :
    parseTsh (pad [0x47, 0x00, 0x88, 0x34, 1, 0x80]) = some (header 0 136 3 4) ∧
    decodedAf (pad [0x47, 0x00, 0x88, 0x34, 1, 0x80]) (header 0 136 3 4) ≠ none ∧
    (pad [0x47, 0x00, 0x88, 0x34, 1, 0x80]).byte 4 ≠ 0 ∧
    (pad [0x47, 0x00, 0x88, 0x34, 1, 0x80]).data.take 5 = (pad [0x47, 0x00, 0x88, 0x34, 1, 0x40]).data.take 5 ∧
    (pad [0x47, 0x00, 0x88, 0x34, 1, 0x80]).data.drop 6 = (pad [0x47, 0x00, 0x88, 0x34, 1, 0x40]).data.drop 6 := by
  decide
theorem witness_IdleCounterIsUnobservable : (idle (some 2)).asm.started = false := rfl
theorem witness_ForeignPacketsCanBeDeleted :
    foreignPacket (assembling 6 4 3).asm.targetPid (pad [0x47, 0x00, 0x89, 0x19]) = true := by decide
theorem witness_ConsecutiveCountersAreNeverLost :
    InSequence (assembling 6 4 15).asm.targetPid 16 [pad [0x47, 0x00, 0x88, 0x10], pad [0x47, 0x00, 0x88, 0x11]] ∧
    (∃ last, (assembling 6 4 15).asm.lastCC = some last ∧ 16 % 16 = (last.toNat + 1) % 16) ∧
    (packetRun [pad [0x47, 0x00, 0x88, 0x10], pad [0x47, 0x00, 0x88, 0x11]] (assembling 6 4 15)).isSome :=
  ⟨⟨⟨header 0 136 1 0, by decide, rfl, rfl⟩, ⟨header 0 136 1 1, by decide, rfl, rfl⟩, trivial⟩, ⟨15, rfl, rfl⟩,
    by decide⟩

/-- The first packet of `L = 4`: six bytes at offset 182. -/
def splitFirst : Block 188 := pad ([0x47, 0x40, 0x88, 0x30, 0xB1, 0x00] ++ zeros 176 ++ H6 4)
/-- The second: the last four bytes, at offset 184. -/
def splitSecond : Block 188 := pad [0x47, 0x00, 0x88, 0x31, 0xB3, 0x00]

theorem witness_SplitPesPacketIsReassembled :
    parseTsh splitFirst = some (header 1 136 3 0) ∧ (header 1 136 3 0).payloadUnitStart = 1 ∧
    (idle none).asm.Expects 136 0 ∧ InSequence (idle none).asm.targetPid 0 [splitFirst, splitSecond] ∧
    (∀ p ∈ [splitSecond], ∀ tsh', parseTsh p = some tsh' → tsh'.payloadUnitStart = 0 ∧ CarriesPayload tsh') ∧
    parsePesHeader (payloadOf splitFirst) = some ⟨1, 0xC0, 4⟩ ∧ (4 : BitVec 16) ≠ 0 ∧
    ([splitFirst, splitSecond].flatMap payloadOf).length = 4 + 6 ∧
    ([splitFirst].flatMap payloadOf).length < 4 + 6 ∧ 4 + 6 ≤ (idle none).cfg.bufCap := by
  have h2 : parseTsh splitSecond = some (header 0 136 3 1) := by decide
  refine ⟨by decide, rfl, ⟨rfl, fun h => nomatch h⟩,
    ⟨⟨header 1 136 3 0, by decide, rfl, rfl⟩, ⟨header 0 136 3 1, h2, rfl, rfl⟩, trivial⟩, ?_, by decide, by decide,
    by decide, by decide, by decide⟩
  intro p hp tsh' h
  rw [List.mem_singleton.mp hp, h2] at h
  cases h
  exact ⟨rfl, .inr rfl⟩

/-- `L = 4` again, now with the body `80 80 00 FF`: nine header bytes and a chunk of one. -/
def splitThird : Block 188 := pad ([0x47, 0x00, 0x88, 0x31, 0xB3, 0x00] ++ zeros 178 ++ [0x80, 0x80, 0x00, 0xFF])

theorem witness_SplitPesPacketIsExtracted :
    parseTsh splitFirst = some (header 1 136 3 0) ∧ (idle none).asm.Expects 136 0 ∧
    InSequence (idle none).asm.targetPid 0 [splitFirst, splitThird] ∧
    (∀ p ∈ [splitThird], ∀ tsh', parseTsh p = some tsh' → tsh'.payloadUnitStart = 0 ∧ CarriesPayload tsh') ∧
    parsePesHeader (payloadOf splitFirst) = some ⟨1, 0xC0, 4⟩ ∧
    ([splitFirst, splitThird].flatMap payloadOf).length = 4 + 6 ∧
    ([splitFirst].flatMap payloadOf).length < 4 + 6 ∧ 4 + 6 ≤ (idle none).cfg.bufCap ∧
    (0xC0 ≤ (0xC0#8 : Byte).toNat ∧ (0xC0#8 : Byte).toNat ≤ 0xDF) ∧
    ([splitFirst, splitThird].flatMap payloadOf)[8]? = some 0 ∧ 9 + (0#8 : Byte).toNat ≤ 4 + 6 := by
  have h2 : parseTsh splitThird = some (header 0 136 3 1) := by decide
  refine ⟨by decide, ⟨rfl, fun h => nomatch h⟩,
    ⟨⟨header 1 136 3 0, by decide, rfl, rfl⟩, ⟨header 0 136 3 1, h2, rfl, rfl⟩, trivial⟩, ?_, by decide, by decide,
    by decide, by decide, by decide, by decide, by decide⟩
  intro p hp tsh' h
  rw [List.mem_singleton.mp hp, h2] at h
  cases h
  exact ⟨rfl, .inr rfl⟩

end Sys2Proof.Tests
end

section
/-! PROOF. The step on the host's next request (spec 00_scope.md R19, 44_packet_step.md R250, R253). -/

namespace Sys2Proof.Machine

/-! ### Taking one request -/

theorem fetch_of_issue {s : State} {c : Command} {rest : List Request} (h : s.requests = .issue c :: rest) :
    fetch s = .ok (c, { s with requests := rest }) := by
  simp [fetch, h]

theorem fetch_of_feed {s : State} {rest : List Request} (h : s.requests = .feed :: rest)
    (hlen : 188 ≤ s.stream.length) :
    fetch s = .ok (.packet (s.stream.take 188),
      { s with requests := rest, stream := s.stream.drop 188, streamPos := s.streamPos + 188 }) := by
  simp [fetch, h, Nat.not_lt.mpr hlen]

theorem step_of_fetch_decode {s s' : State} {c : Command} {i : Instr} (hf : fetch s = .ok (c, s'))
    (hd : decode c = .ok i) : step s = exec i s' := by
  simp [step, hf, hd]

/-- Settles O41: either kind of request is fetched as the operation it decodes to. That requests and stream stand in the state is
the model's (log entry 1). -/
theorem stepRunsDecodedRequest : Obligations.StepRunsDecodedRequest := by
  intro s rest i
  constructor
  · intro c hreq hdec
    exact step_of_fetch_decode (fetch_of_issue hreq) hdec
  · intro hreq hlen hdec
    exact step_of_fetch_decode (fetch_of_feed hreq hlen) hdec

end Sys2Proof.Machine
end

section
/-! PROOF. PKT has a next state wherever BUF has room for what the packet appends (spec 43_pes_assembler.md R187, R204). -/

namespace Sys2Proof.Machine

/-! ### The assembler answers when there is room -/

theorem startPes_ok_of_room {cap : Nat} {bs : List Byte} (hroom : bs.length ≤ cap) (a : Asm) :
    ∃ x, startPes cap bs a = .ok x := by
  by_cases hlen : bs.length < 6
  · exact ⟨_, startPes_of_truncated hlen⟩
  · obtain ⟨hd, hp⟩ := parsePesHeader_isSome (Nat.not_lt.mp hlen)
    exact ⟨_, startPes_of_parsed hp hroom⟩

theorem continuePes_ok_of_room {cap : Nat} {bs : List Byte} {a : Asm}
    (hroom : a.started = true → a.bytesAccumulated + bs.length ≤ cap) :
    ∃ x, continuePes cap bs a = .ok x := by
  cases hs : a.started with
  | false => exact ⟨_, continuePes_of_idle hs⟩
  | true =>
    rw [continuePes_of_fits hs (hroom hs)]
    split
    · exact ⟨_, rfl⟩
    · exact ⟨_, rfl⟩

/-- Only what a start holds on its own, and what a continuation adds while Assembling, needs room: a buffer kept while Idle is
in nobody's way. -/
theorem absorb_ok_of_room {cap : Nat} {p : Block 188} {tsh : Tsh} {a : Asm}
    (hknown : a.started = true → a.lastCC ≠ none) (hstart : 188 - offsetOf p tsh ≤ cap)
    (hcont : a.started = true → a.bytesAccumulated + (188 - offsetOf p tsh) ≤ cap) :
    ∃ x, absorb cap p tsh (decodedAf p tsh) a = .ok x := by
  rcases Asm.admission_cases hknown tsh.pid tsh.continuityCounter with hforeign | hmiss | hexp
  · exact ⟨_, absorb_of_foreign hforeign _⟩
  · exact ⟨_, absorb_of_misses hmiss _⟩
  · rcases BitVec.eq_zero_or_eq_one tsh.payloadUnitStart with hu | hu
    · by_cases hp : CarriesPayload tsh
      · rw [absorb_of_continuation hexp hu hp]
        exact continuePes_ok_of_room (by simpa using hcont)
      · exact ⟨_, absorb_of_no_payload hexp hu hp _⟩
    · rw [absorb_of_start hexp hu]
      exact startPes_ok_of_room (by simpa using hstart) _

theorem exec_pkt_next_of_room {p : Block 188} {s : State} (hknown : s.asm.started = true → s.asm.lastCC ≠ none)
    (hstart : 184 ≤ s.cfg.bufCap) (hcont : s.asm.started = true → s.asm.bytesAccumulated + 184 ≤ s.cfg.bufCap) :
    ∃ t, exec (.pkt p) s = .next t := by
  cases hp : parseTsh p with
  | none => exact ⟨_, exec_pkt_of_invalid hp s⟩
  | some tsh =>
    have hoff : 188 - offsetOf p tsh ≤ 184 := by have := four_le_offsetOf p tsh; omega
    obtain ⟨⟨a, r⟩, hab⟩ := absorb_ok_of_room hknown (hoff.trans hstart)
      (fun hs => (Nat.add_le_add_left hoff _).trans (hcont hs))
    exact ⟨_, by rw [exec_pkt_of_parsed hp, hab, commit_ok]⟩

/-- The arithmetic of R10: a 16-bit declared length keeps an unfinished bounded packet at 65540 bytes or less. -/
theorem Asm.Inv.bytesAccumulated_le_of_bounded {cap : Nat} {a : Asm} (h : a.Inv cap) (hs : a.started = true)
    (hlen : a.header.packetLength ≠ 0) : a.bytesAccumulated ≤ 65540 := by
  have hlt := a.header.packetLength.isLt
  rcases h.unfinished hs hlen with hshort | hfirst
  · omega
  · omega

/-- Settles O48: 65540 bytes held and 184 appended make 65724. -/
theorem boundedPacketsNeverOverflow : Obligations.BoundedPacketsNeverOverflow := by
  intro p s hinv hcap hbounded
  refine exec_pkt_next_of_room hinv.assembler.counterKnown (by omega) fun hs => ?_
  have hheld := hinv.assembler.bytesAccumulated_le_of_bounded hs (hbounded hs)
  omega

end Sys2Proof.Machine
end

section
/-! PROOF. A packet class does what the composite PKT does on the packet (spec 30_encoding.md R110, 44_packet_step.md R240). -/

namespace Sys2Proof.Machine

/-! ### A packet and the body behind its header word -/

section body

variable {p : Block 188} {body : Block 184} (hbody : p.data.drop 4 = body.data)
include hbody

theorem packetPayload_eq_bodyPayload {offset : Nat} (hoff : 4 ≤ offset) :
    packetPayload p offset = bodyPayload body offset := by
  rw [packetPayload, bodyPayload, ← hbody, List.drop_drop, Nat.add_sub_cancel' hoff]

theorem packetAf_eq_bodyAf : packetAf p = bodyAf body := by
  have h4 : p.byte 4 = body.byte 0 := by simp [Block.byte, ← hbody]
  have h5 : p.byte 5 = body.byte 1 := by simp [Block.byte, ← hbody]
  rw [packetAf, bodyAf, h4, h5]

/-! ### The two shapes of a class, in the composite's words -/

theorem plainClass_eq (u : BitVec 1) (c : BitVec 2) (hc : hasAdaptationField c = false) (h : HeaderFields)
    (k : List Byte → Asm → Except Fault (Asm × Result)) (s : State) :
    plainClass u c h body k s =
      commit (s.present (classTsh u c h) (decodedAf p (classTsh u c h)))
        (admitted (classTsh u c h) s.asm (k (packetPayload p (payloadOffset (decodedAf p (classTsh u c h)))))) := by
  have haf : decodedAf p (classTsh u c h) = none := by simp [← decodedAf_eq, hc]
  rw [haf, payloadOffset, packetPayload_eq_bodyPayload hbody le_rfl, plainClass]

theorem adaptedClass_eq (u : BitVec 1) (c : BitVec 2) (hc : hasAdaptationField c = true) (h : HeaderFields)
    (k : List Byte → Asm → Except Fault (Asm × Result)) (s : State) :
    adaptedClass u c h body k s =
      commit (s.present (classTsh u c h) (decodedAf p (classTsh u c h)))
        (admitted (classTsh u c h) s.asm (k (packetPayload p (payloadOffset (decodedAf p (classTsh u c h)))))) := by
  have haf : decodedAf p (classTsh u c h) = some (bodyAf body) := by
    simp [← decodedAf_eq, hc, packetAf_eq_bodyAf hbody]
  rw [haf, packetPayload_eq_bodyPayload hbody (by simp [payloadOffset]), adaptedClass]

/-- Each class is PES.ABSORB on its packet with the bits the class fixes (R111, R240). -/
theorem exec_classOf (u : BitVec 1) (c : BitVec 2) (h : HeaderFields) (s : State) :
    exec (classOf u c h body) s =
      commit (s.present (classTsh u c h) (decodedAf p (classTsh u c h)))
        (absorb s.cfg.bufCap p (classTsh u c h) (decodedAf p (classTsh u c h)) s.asm) := by
  have hafc : c = 0#2 ∨ c = 1#2 ∨ c = 2#2 ∨ c = 3#2 := by revert c; decide
  rcases BitVec.eq_zero_or_eq_one u with rfl | rfl
  · rcases hafc with rfl | rfl | rfl | rfl
    · exact plainClass_eq hbody 0 0 rfl h (fun _ => ignorePacket) s
    · exact plainClass_eq hbody 0 1 rfl h _ s
    · exact adaptedClass_eq hbody 0 2 rfl h (fun _ => ignorePacket) s
    · exact adaptedClass_eq hbody 0 3 rfl h _ s
  · rcases hafc with rfl | rfl | rfl | rfl
    · exact plainClass_eq hbody 1 0 rfl h _ s
    · exact plainClass_eq hbody 1 1 rfl h _ s
    · exact adaptedClass_eq hbody 1 2 rfl h _ s
    · exact adaptedClass_eq hbody 1 3 rfl h _ s

end body

/-! ### The decoded packet -/

/-- Every block decodes, by its sync byte to the class of its header word or to PKT.SYNCERR (R111, R114). -/
theorem decode_packet_cases (p : Block 188) :
    (∃ body : Block 184, p.data.drop 4 = body.data ∧ p.byte 0 = syncByte ∧
      decode (.packet p.data) = .ok (classOf (payloadUnitStartOf (p.byte 1)) (adaptationFieldControlOf (p.byte 3))
        (headerFieldsOf (p.byte 1) (p.byte 2) (p.byte 3)) body)) ∨
    (p.byte 0 ≠ syncByte ∧ ∃ sync rest, decode (.packet p.data) = .ok (.pktSyncErr sync rest)) := by
  obtain ⟨data, size⟩ := p
  match data, size with
  | b0 :: b1 :: b2 :: b3 :: tail, size =>
    have hbody : sizedBlock 184 tail = some ⟨tail, by simpa using size⟩ := sizedBlock_data ⟨tail, _⟩
    by_cases hsync : b0 = syncByte
    · exact .inl ⟨⟨tail, by simpa using size⟩, rfl, hsync, by simp [decode, decodePacket, hbody, hsync, Block.byte]⟩
    · exact .inr ⟨hsync, _, _, by simp only [decode, decodePacket, hbody, hsync, if_false]; rfl⟩

theorem parseTsh_eq_classTsh {p : Block 188} (h : p.byte 0 = syncByte) :
    parseTsh p = some (classTsh (payloadUnitStartOf (p.byte 1)) (adaptationFieldControlOf (p.byte 3))
      (headerFieldsOf (p.byte 1) (p.byte 2) (p.byte 3))) := by
  simp [parseTsh, h, classTsh, headerFieldsOf]

/-- Every block presented as a packet decodes, to an operation that does what PKT does on the block. -/
theorem decode_packet_exec_eq_pkt (p : Block 188) :
    ∃ i, decode (.packet p.data) = .ok i ∧ ∀ s, exec i s = exec (.pkt p) s := by
  rcases decode_packet_cases p with ⟨body, hbody, hsync, hdec⟩ | ⟨hsync, sync, rest, hdec⟩
  · refine ⟨_, hdec, fun s => ?_⟩
    rw [exec_pkt_of_parsed (parseTsh_eq_classTsh hsync), exec_classOf hbody]
  · refine ⟨_, hdec, fun s => ?_⟩
    rw [exec_pkt_of_invalid ((parseTsh_eq_none_iff p).mpr hsync), exec, execPktSyncErr, finish_eq]

end Sys2Proof.Machine
end

section
/-! PROOF. Feeding blocks of the stream is the fold of PKT over the blocks (spec 00_scope.md R19, 44_packet_step.md R250). -/

namespace Sys2Proof.Machine

/-! ### The host's side of the state -/

/-- The machine of `s` before a host that asks for `requests` and holds `stream`, of which `pos` bytes are presented. -/
def State.withHost (s : State) (requests : List Request) (stream : List Byte) (pos : Nat) : State :=
  { s with requests := requests, stream := stream, streamPos := pos }

/-- A change of the next state only. -/
def mapNext (f : State → State) : Out → Out
  | .next s => .next (f s)
  | .fault r => .fault r
  | .refused r => .refused r

theorem commit_withHost (s : State) (requests : List Request) (stream : List Byte) (pos : Nat)
    (x : Except Fault (Asm × Result)) :
    commit (s.withHost requests stream pos) x = mapNext (·.withHost requests stream pos) (commit s x) := by
  cases x with
  | error f => rfl
  | ok ar => rfl

/-- PKT neither reads nor writes the host's side. -/
theorem exec_pkt_withHost (p : Block 188) (s : State) (requests : List Request) (stream : List Byte) (pos : Nat) :
    exec (.pkt p) (s.withHost requests stream pos)
      = mapNext (·.withHost requests stream pos) (exec (.pkt p) s) := by
  cases hp : parseTsh p with
  | none => rw [exec_pkt_of_invalid hp, exec_pkt_of_invalid hp]; rfl
  | some tsh =>
    rw [exec_pkt_of_parsed hp, exec_pkt_of_parsed hp, ← commit_withHost]
    rfl

/-! ### The run -/

/-- A feed presents the stream's first block, and the machine does what PKT does on it. -/
theorem step_of_feed_block {s : State} {p : Block 188} {rest : List Request} {tail : List Byte}
    (hreq : s.requests = .feed :: rest) (hstream : s.stream = p.data ++ tail) :
    step s = exec (.pkt p) (s.withHost rest tail (s.streamPos + 188)) := by
  have hlen : 188 ≤ s.stream.length := by simp [hstream, p.size]
  have hblock : s.stream.take 188 = p.data := by rw [hstream, List.take_left' p.size]
  have htail : s.stream.drop 188 = tail := by rw [hstream, List.drop_left' p.size]
  obtain ⟨i, hdec, hexec⟩ := decode_packet_exec_eq_pkt p
  rw [step_of_fetch_decode (fetch_of_feed hreq hlen) (by rw [hblock]; exact hdec), htail, hexec]
  rfl

theorem step_withHost_feed (p : Block 188) (s : State) (rest : List Request) (tail : List Byte) (pos : Nat) :
    step (s.withHost (.feed :: rest) (p.data ++ tail) pos)
      = mapNext (·.withHost rest tail (pos + 188)) (exec (.pkt p) s) :=
  (step_of_feed_block rfl rfl).trans (exec_pkt_withHost p s rest tail (pos + 188))

/-- The machine before a host that feeds the blocks runs as the fold does before any other host. -/
theorem stepRun_feeds (blocks : List (Block 188)) (rest : List Request) (tail : List Byte) (pos : Nat) (s : State) :
    stepRun blocks.length
        (s.withHost (List.replicate blocks.length .feed ++ rest) (blocks.flatMap Block.data ++ tail) pos)
      = (packetRun blocks s).map fun x => x.1.withHost rest tail (pos + 188 * blocks.length) := by
  induction blocks generalizing s pos with
  | nil => rfl
  | cons p ps ih =>
    have hpos : pos + 188 * (ps.length + 1) = pos + 188 + 188 * ps.length := by omega
    rw [List.length_cons, List.replicate_succ, List.cons_append, List.flatMap_cons, List.append_assoc, hpos,
      stepRun, packetRun, step_withHost_feed]
    cases exec (.pkt p) s with
    | next s' =>
      simp only [mapNext, ih]
      cases packetRun ps s' with
      | none => rfl
      | some t => rfl
    | fault f => rfl
    | refused r => rfl

/-- Settles O43, by induction on the blocks: PKT does not see the host's side, so the fold may run beside it. -/
theorem feedingIsTheFoldOfPackets : Obligations.FeedingIsTheFoldOfPackets := by
  intro blocks rest tail s hreq hstream
  have hrun := stepRun_feeds blocks rest tail s.streamPos s
  rwa [← hreq, ← hstream] at hrun

end Sys2Proof.Machine
end

section
/-! PROOF. What an operation that goes on does, and which registers it leaves unchanged (spec 10_state.md R23, R32, R33). -/

namespace Sys2Proof.Machine

/-! ### What a packet does to the assembler -/

/-- PES.ABSORB keeps the PID it accepts (R33). -/
theorem absorb_targetPid {cap : Nat} {p : Block 188} {tsh : Tsh} {adapt : Option Af} {a a' : Asm} {r : Result}
    (h : absorb cap p tsh adapt a = .ok (a', r)) : a'.targetPid = a.targetPid := by
  rcases absorb_ok_cases h with ⟨_, rfl, _⟩ | ⟨_, rfl, _⟩ | ⟨_, hrow⟩
  · rfl
  · rfl
  · rcases hrow with ⟨_, _, _, _, rfl, _⟩ | ⟨_, _, rfl, _⟩ | ⟨_, _, rfl, _⟩ | ⟨_, _, _, _, _, rfl, _⟩ |
      ⟨_, _, _, _, _, rfl, _⟩ <;> rfl

/-- PES.ABSORB returns neither of the decoders' errors (R205). -/
theorem absorb_result_ne_decoderError {cap : Nat} {p : Block 188} {tsh : Tsh} {adapt : Option Af} {a a' : Asm}
    {r : Result} (h : absorb cap p tsh adapt a = .ok (a', r)) : r ≠ .invalidSync ∧ r ≠ .invalidAfc := by
  rcases absorb_ok_cases h with ⟨_, _, rfl⟩ | ⟨_, _, rfl⟩ | ⟨_, hrow⟩
  · decide
  · decide
  · rcases hrow with ⟨_, _, _, _, _, rfl⟩ | ⟨_, _, _, rfl⟩ | ⟨_, _, _, rfl⟩ | ⟨_, _, _, _, _, _, rfl⟩ |
      ⟨_, _, _, _, _, _, rfl⟩
    · decide
    · cases a.started <;> decide
    · decide
    · decide
    · decide

/-! ### The operations, by what they do -/

/-- The operations that take a whole packet through the decoders to the assembler: PKT and its nine classes (R110, R240). -/
def isPacket : Instr → Bool
  | .pktContAfc0 _ _ | .pktContAfc1 _ _ | .pktContAfc2 _ _ | .pktContAfc3 _ _ => true
  | .pktStartAfc0 _ _ | .pktStartAfc1 _ _ | .pktStartAfc2 _ _ | .pktStartAfc3 _ _ => true
  | .pktSyncErr _ _ | .pkt _ => true
  | .tshParse _ | .afParse _ _ | .peshParse _ | .esStrip | .pesAbsorb _ | .reset _ => false

theorem ne_decoder_of_isPacket {i : Instr} (h : isPacket i = true) :
    (∀ p, i ≠ .tshParse p) ∧ ∀ p afc, i ≠ .afParse p afc := by
  constructor
  · rintro p rfl
    cases h
  · rintro p afc rfl
    cases h

/-- The end of `finishUnstated`, as an update (R26; log entry 19). -/
def State.endUnstated (s : State) : State := s.takeFree.setResult (.unstated (Config.freeResult s.freeCount))

/-- What an operation that goes on does to the state `s`, one constructor for each way to end in a next state: which registers
are written, and with what. Which packet a class absorbs is left open. -/
inductive ExecEffect (s : State) : Instr → State → Prop where
  /-- PKT or a class, on a packet with the sync byte (R240). -/
  | absorbed {i : Instr} {p : Block 188} {tsh : Tsh} {af : Option Af} {a : Asm} {r : Result}
      (hi : isPacket i = true) (hsync : tsh.syncByte = syncByte)
      (habsorb : absorb s.cfg.bufCap p tsh af s.asm = .ok (a, r)) :
      ExecEffect s i (((s.present tsh af).setAsm a).setResult r)
  /-- PKT or PKT.SYNCERR, on a packet without it (R242). -/
  | syncError {i : Instr} (hi : isPacket i = true) : ExecEffect s i ((s.present Tsh.zero none).setResult .syncError)
  /-- PES.ABSORB on its own (R245). -/
  | absorbedAlone {p : Block 188} {adapt : Option Af} {a : Asm} {r : Result}
      (habsorb : absorb s.cfg.bufCap p s.tsh adapt s.asm = .ok (a, r)) :
      ExecEffect s (.pesAbsorb p) ((s.setAsm a).setResult r)
  | tshParsed {p : Block 188} {tsh : Tsh} (htsh : parseTsh p = some tsh) :
      ExecEffect s (.tshParse p) (s.setTsh tsh).endUnstated
  | tshRejected {p : Block 188} (htsh : parseTsh p = none) :
      ExecEffect s (.tshParse p) ((s.present Tsh.zero none).setResult .invalidSync)
  | afParsed {p : Block 188} {afc : BitVec 2} (hafc : hasAdaptationField afc = true) :
      ExecEffect s (.afParse p afc) (s.setAf (some (packetAf p))).endUnstated
  | afRejected {p : Block 188} {afc : BitVec 2} (hafc : hasAdaptationField afc = false) :
      ExecEffect s (.afParse p afc) ((s.setAf none).setResult .invalidAfc)
  | peshParsed (bytes : List Byte) (v : Returned) : ExecEffect s (.peshParse bytes) (s.giveBack v).endUnstated
  | stripFailed (v : Returned) : ExecEffect s .esStrip (s.giveBack v)
  | stripped (chunk : List Byte) : ExecEffect s .esStrip (s.giveChunk chunk)
  | reset (pid : BitVec 13) :
      ExecEffect s (.reset pid) (((s.present Tsh.zero none).setAsm (Asm.fresh pid)).setResult .noResult)

section effect

variable {i : Instr} {s t : State}

theorem isPacket_classOf (u : BitVec 1) (c : BitVec 2) (h : HeaderFields) (body : Block 184) :
    isPacket (classOf u c h body) = true := by
  unfold classOf
  split_ifs <;> rfl

theorem execEffect_classOf (u : BitVec 1) (c : BitVec 2) (h : HeaderFields) (body : Block 184)
    (hexec : exec (classOf u c h body) s = .next t) : ExecEffect s (classOf u c h body) t := by
  let p : Block 188 := ⟨encodePacket u c h body, Laws.EncodedBlock.length_encodePacket u c h body⟩
  have hbody : p.data.drop 4 = body.data := rfl
  rw [exec_classOf hbody, commit_eq_next_iff] at hexec
  obtain ⟨a, r, habsorb, rfl⟩ := hexec
  exact .absorbed (isPacket_classOf u c h body) rfl habsorb

theorem execEffect_pkt {p : Block 188} (hexec : exec (.pkt p) s = .next t) : ExecEffect s (.pkt p) t := by
  cases htsh : parseTsh p with
  | none =>
    rw [exec_pkt_of_invalid htsh] at hexec
    cases hexec
    exact .syncError rfl
  | some tsh =>
    rw [exec_pkt_of_parsed htsh, commit_eq_next_iff] at hexec
    obtain ⟨a, r, habsorb, rfl⟩ := hexec
    exact .absorbed rfl (parseTsh_syncByte htsh) habsorb

theorem execEffect_pesAbsorb {p : Block 188} (hexec : exec (.pesAbsorb p) s = .next t) :
    ExecEffect s (.pesAbsorb p) t := by
  rw [exec, execPesAbsorb] at hexec
  split at hexec
  · obtain ⟨a, r, habsorb, rfl⟩ := (commit_eq_next_iff _ _ _).mp hexec
    exact .absorbedAlone habsorb
  · cases hexec

theorem execEffect_tshParse {p : Block 188} (hexec : exec (.tshParse p) s = .next t) :
    ExecEffect s (.tshParse p) t := by
  cases htsh : parseTsh p with
  | none =>
    rw [exec_tshParse_of_invalid htsh] at hexec
    cases hexec
    exact .tshRejected htsh
  | some tsh =>
    rw [exec_tshParse_of_parsed htsh] at hexec
    cases hexec
    exact .tshParsed htsh

theorem execEffect_afParse {p : Block 188} {afc : BitVec 2} (hexec : exec (.afParse p afc) s = .next t) :
    ExecEffect s (.afParse p afc) t := by
  cases hafc : hasAdaptationField afc with
  | false =>
    rw [exec_afParse_of_invalid hafc] at hexec
    cases hexec
    exact .afRejected hafc
  | true =>
    rw [exec_afParse_of_field hafc] at hexec
    cases hexec
    exact .afParsed hafc

theorem execEffect_peshParse {bytes : List Byte} (hexec : exec (.peshParse bytes) s = .next t) :
    ExecEffect s (.peshParse bytes) t := by
  cases hb : parsePesHeader bytes with
  | none =>
    rw [exec_peshParse_of_truncated hb] at hexec
    cases hexec
    exact .peshParsed bytes _
  | some h =>
    rw [exec_peshParse_of_parsed hb] at hexec
    cases hexec
    exact .peshParsed bytes _

theorem execEffect_esStrip (hexec : exec .esStrip s = .next t) : ExecEffect s .esStrip t := by
  simp only [exec, execEsStrip] at hexec
  split at hexec
  · cases hexec; exact .stripFailed _
  · split at hexec
    · cases hexec
    · split at hexec
      · cases hexec; exact .stripFailed _
      · split at hexec
        · cases hexec
        · cases hexec; exact .stripped _

/-- The inversion of `exec`, by the operation. -/
theorem execEffect_of_exec (hexec : exec i s = .next t) : ExecEffect s i t := by
  cases i with
  | pktContAfc0 h body => exact execEffect_classOf 0 0 h body hexec
  | pktContAfc1 h body => exact execEffect_classOf 0 1 h body hexec
  | pktContAfc2 h body => exact execEffect_classOf 0 2 h body hexec
  | pktContAfc3 h body => exact execEffect_classOf 0 3 h body hexec
  | pktStartAfc0 h body => exact execEffect_classOf 1 0 h body hexec
  | pktStartAfc1 h body => exact execEffect_classOf 1 1 h body hexec
  | pktStartAfc2 h body => exact execEffect_classOf 1 2 h body hexec
  | pktStartAfc3 h body => exact execEffect_classOf 1 3 h body hexec
  | pktSyncErr sync rest =>
    cases hexec
    exact .syncError rfl
  | tshParse p => exact execEffect_tshParse hexec
  | afParse p afc => exact execEffect_afParse hexec
  | peshParse bytes => exact execEffect_peshParse hexec
  | esStrip => exact execEffect_esStrip hexec
  | pesAbsorb p => exact execEffect_pesAbsorb hexec
  | pkt p => exact execEffect_pkt hexec
  | reset pid =>
    cases hexec
    exact .reset pid

/-! ### What the operations leave unchanged -/

theorem ExecEffect.cfg_eq (h : ExecEffect s i t) : t.cfg = s.cfg := by cases h <;> rfl

theorem ExecEffect.streamPos_eq (h : ExecEffect s i t) : t.streamPos = s.streamPos := by cases h <;> rfl

/-- The assembler's registers have two writers, PES.ABSORB and RESET (R32). -/
theorem ExecEffect.asm_cases (h : ExecEffect s i t) :
    t.asm = s.asm ∨ (∃ pid, i = .reset pid ∧ t.asm = Asm.fresh pid) ∨
      ∃ p tsh adapt r, absorb s.cfg.bufCap p tsh adapt s.asm = .ok (t.asm, r) := by
  cases h with
  | absorbed _ _ habsorb => exact .inr (.inr ⟨_, _, _, _, habsorb⟩)
  | absorbedAlone habsorb => exact .inr (.inr ⟨_, _, _, _, habsorb⟩)
  | reset pid => exact .inr (.inl ⟨pid, rfl, rfl⟩)
  | _ => exact .inl rfl

theorem ExecEffect.asm_eq (h : ExecEffect s i t) (hpacket : isPacket i = false)
    (habsorb : ∀ p, i ≠ .pesAbsorb p) (hreset : ∀ pid, i ≠ .reset pid) : t.asm = s.asm := by
  cases h with
  | absorbed hi => simp [hi] at hpacket
  | absorbedAlone => exact absurd rfl (habsorb _)
  | reset => exact absurd rfl (hreset _)
  | _ => rfl

theorem ExecEffect.tsh_eq (h : ExecEffect s i t) (hpacket : isPacket i = false)
    (htshParse : ∀ p, i ≠ .tshParse p) (hreset : ∀ pid, i ≠ .reset pid) : t.tsh = s.tsh := by
  cases h with
  | absorbed hi => simp [hi] at hpacket
  | syncError hi => simp [hi] at hpacket
  | tshParsed => exact absurd rfl (htshParse _)
  | tshRejected => exact absurd rfl (htshParse _)
  | reset => exact absurd rfl (hreset _)
  | _ => rfl

end effect

/-- Settles O35: BUF_CAP has no writer, and of the two writers of ASM only RESET writes `targetPid`. -/
theorem onlyResetChangesTargetPid : Obligations.OnlyResetChangesTargetPid := by
  intro i s t hexec
  have heffect := execEffect_of_exec hexec
  refine ⟨heffect.cfg_eq, fun hreset => ?_⟩
  rcases heffect.asm_cases with hasm | ⟨pid, hi, _⟩ | ⟨p, tsh, adapt, r, habsorb⟩
  · rw [hasm]
  · exact absurd hi (hreset pid)
  · exact absorb_targetPid habsorb

/-- Settles O37: none of the four in each clause is among the writers of ASM and BUF, or of TSH. -/
theorem registerGroupsHaveTheirWriters : Obligations.RegisterGroupsHaveTheirWriters := by
  intro p afc bytes s t
  constructor
  · rintro (h | h | h | h) <;> exact (execEffect_of_exec h).asm_eq rfl nofun nofun
  · rintro (h | h | h | h) <;> exact (execEffect_of_exec h).tsh_eq rfl nofun nofun

end Sys2Proof.Machine
end

section
/-! PROOF. The decoders' errors in RESULT, and AF after one of them (spec 10_state.md R26, R29; 40_ts_header.md R131;
41_adaptation_field.md R151). -/

namespace Sys2Proof.Machine

theorem hasAdaptationField_eq_false_iff (afc : BitVec 2) :
    hasAdaptationField afc = false ↔ afc = 0#2 ∨ afc = 1#2 := by revert afc; decide

theorem State.endUnstated_result_ne (s : State) :
    s.endUnstated.result ≠ .invalidSync ∧ s.endUnstated.result ≠ .invalidAfc :=
  ⟨Result.unstated_ne_invalidSync _, Result.unstated_ne_invalidAfc _⟩

/-- RESULT is InvalidSync or InvalidAfc after exactly the decoder that raises it on its condition. -/
theorem ExecEffect.decoderError_iff {i : Instr} {s t : State} (h : ExecEffect s i t) (hi : i ≠ .esStrip) :
    (t.result = .invalidSync ↔ ∃ p, i = .tshParse p ∧ p.byte 0 ≠ syncByte) ∧
    (t.result = .invalidAfc ↔ ∃ p afc, i = .afParse p afc ∧ (afc = 0#2 ∨ afc = 1#2)) := by
  simp only [← parseTsh_eq_none_iff, ← hasAdaptationField_eq_false_iff]
  cases h with
  | absorbed hpacket _ habsorb =>
    simp [absorb_result_ne_decoderError habsorb, ne_decoder_of_isPacket hpacket]
  | syncError hpacket => simp [ne_decoder_of_isPacket hpacket]
  | absorbedAlone habsorb => simp [absorb_result_ne_decoderError habsorb]
  | tshParsed htsh => simp [State.endUnstated_result_ne, htsh]
  | tshRejected htsh => simp [htsh]
  | afParsed hafc => simp [State.endUnstated_result_ne, hafc]
  | afRejected hafc => simp [hafc]
  | peshParsed => simp [State.endUnstated_result_ne]
  | stripFailed => exact absurd rfl hi
  | stripped => exact absurd rfl hi
  | reset => simp

theorem ExecEffect.esStrip_result {s t : State} (h : ExecEffect s .esStrip t) : t.result = s.result := by
  cases h with
  | absorbed hi => cases hi
  | syncError hi => cases hi
  | stripFailed => rfl
  | stripped => rfl

/-- Settles O58: only the decoders' own failures put their errors in RESULT, and ES.STRIP does not write it. -/
theorem decoderErrorsStandAfterTheirDecoderOnly : Obligations.DecoderErrorsStandAfterTheirDecoderOnly := by
  intro i s t hexec
  have heffect := execEffect_of_exec hexec
  exact ⟨heffect.decoderError_iff, fun hi => (hi ▸ heffect).esStrip_result⟩

/-- Settles O7, on the branch of TSH.PARSE that fails (log entry 5). -/
theorem failedTshParseClearsAf : Obligations.FailedTshParseClearsAf := by
  intro p s hsync
  exact ⟨_, exec_tshParse_of_invalid ((parseTsh_eq_none_iff p).mpr hsync) s, rfl⟩

end Sys2Proof.Machine
end

section
/-! PROOF. The invariant of a run: it holds after reset and every step keeps it (spec 10_state.md R39, R40; 43_pes_assembler.md
R204). -/

namespace Sys2Proof.Machine

/-! ### The header in BUF -/

/-- PESH.PARSE reads the first six bytes only (R170). -/
theorem parsePesHeader_take_six (bs : List Byte) : parsePesHeader (bs.take 6) = parsePesHeader bs := by
  rcases bs with _ | ⟨_, _ | ⟨_, _ | ⟨_, _ | ⟨_, _ | ⟨_, _ | ⟨_, _⟩⟩⟩⟩⟩⟩ <;> rfl

theorem six_le_length_of_parsePesHeader {bs : List Byte} {hd : PesHeader} (h : parsePesHeader bs = some hd) :
    6 ≤ bs.length := by
  by_contra hlt
  rw [(parsePesHeader_eq_none_iff bs).mpr (by omega)] at h
  cases h

/-- Bytes written from address 0 are read back. -/
theorem readBytes_cellsFrom_zero {bs : List Byte} {n : Nat} (h : n ≤ bs.length) :
    Memory.readBytes (cellsFrom 0 bs) 0 n = some (bs.take n) := by
  rw [Memory.readBytes_eq_some_iff]
  refine ⟨by simpa using h, fun i hi => ?_⟩
  simp [read_cellsFrom, hi]

/-- BufAppend does not reach the bytes below the length (R187). -/
theorem Asm.readBytes_append {a : Asm} {n : Nat} {bytes : List Byte} (hn : n ≤ a.bytesAccumulated)
    (h : Memory.readBytes a.buffer 0 n = some bytes) (bs : List Byte) :
    Memory.readBytes (a.append bs).buffer 0 n = some bytes := by
  rw [Memory.readBytes_eq_some_iff] at h ⊢
  obtain ⟨hlen, hread⟩ := h
  refine ⟨hlen, fun i hi => ?_⟩
  rw [Asm.append_buffer, Memory.read_writeBytes, if_neg (by omega), hread i hi]

/-! ### The assembler's invariant, by the writes of R205 -/

section asm

variable {cap : Nat} {a : Asm} {bs : List Byte}

theorem Asm.inv_of_empty (hs : a.started = false) (hb : a.buffer = []) (hn : a.bytesAccumulated = 0) : a.Inv cap where
  fits := by omega
  exactBuffer := by simp [Asm.BufferExact, hb, hn]
  counterKnown := by simp [hs]
  headerHeld := by simp [hs]
  headerRead := by simp [hn]
  unfinished := by simp [hs]
  finished := by simp [hn]
  bounded := by simp [hn]

theorem Asm.Inv.recordCounter (h : a.Inv cap) (cc : BitVec 4) : (a.recordCounter cc).Inv cap :=
  { h with counterKnown := by simp }

/-- A start, whose payload is one packet's (R195). -/
theorem Asm.inv_startedWith {hd : PesHeader} (hcc : a.lastCC ≠ none) (hparse : parsePesHeader bs = some hd)
    (hfit : bs.length ≤ cap) (hlen : bs.length ≤ 184) : (a.startedWith hd bs).Inv cap where
  fits := by simpa using hfit
  exactBuffer := by simp [Asm.BufferExact, List.range_eq_range']
  counterKnown := fun _ => hcc
  headerHeld := fun _ => by simpa using six_le_length_of_parsePesHeader hparse
  headerRead := fun _ => ⟨bs.take 6, by
    simpa using readBytes_cellsFrom_zero (six_le_length_of_parsePesHeader hparse), by
    simpa [parsePesHeader_take_six] using hparse⟩
  unfinished := fun _ _ => .inr (by simpa using hlen)
  finished := by simp
  bounded := fun _ => by simp; omega

/-- What an append while Assembling keeps, whether or not it completes the packet. -/
theorem Asm.Inv.append_headerRead (h : a.Inv cap) (hs : a.started = true) (bs : List Byte) :
    ∃ bytes, Memory.readBytes (a.append bs).buffer 0 6 = some bytes ∧ parsePesHeader bytes = some a.header := by
  have hsix := h.headerHeld hs
  obtain ⟨bytes, hread, hparse⟩ := h.headerRead (by omega)
  exact ⟨bytes, Asm.readBytes_append hsix hread bs, hparse⟩

/-- R204: one packet's payload after an unfinished bounded packet. -/
theorem Asm.Inv.append_bounded (h : a.Inv cap) (hs : a.started = true) (hlen : bs.length ≤ 184)
    (hbounded : a.header.packetLength ≠ 0) :
    a.bytesAccumulated + bs.length ≤ max 184 (a.header.packetLength.toNat + 5) + 184 := by
  rcases h.unfinished hs hbounded with hshort | hfirst
  · omega
  · omega

/-- A continuation that leaves the packet unfinished (R201). -/
theorem Asm.Inv.append (h : a.Inv cap) (hs : a.started = true) (hlen : bs.length ≤ 184)
    (hfit : a.bytesAccumulated + bs.length ≤ cap) (hmore : (a.append bs).complete = false) : (a.append bs).Inv cap where
  fits := hfit
  exactBuffer := h.exactBuffer.append bs
  counterKnown := h.counterKnown
  headerHeld := fun _ => Nat.le_add_right_of_le (h.headerHeld hs)
  headerRead := fun _ => h.append_headerRead hs bs
  unfinished := fun _ hbounded => .inl <| Nat.not_le.mp fun hreached => by
    rw [(Asm.complete_append_iff a bs).mpr ⟨hbounded, hreached⟩] at hmore
    cases hmore
  finished := by simp [hs]
  bounded := h.append_bounded hs hlen

/-- A continuation that reaches the declared total (R200). -/
theorem Asm.Inv.append_finished (h : a.Inv cap) (hs : a.started = true) (hlen : bs.length ≤ 184)
    (hfit : a.bytesAccumulated + bs.length ≤ cap) (hdone : (a.append bs).complete = true) :
    ((a.append bs).setStarted false).Inv cap where
  fits := hfit
  exactBuffer := h.exactBuffer.append bs
  counterKnown := by simp
  headerHeld := by simp
  headerRead := fun _ => h.append_headerRead hs bs
  unfinished := by simp
  finished := fun _ _ => (Asm.complete_append_iff a bs).mp hdone
  bounded := h.append_bounded hs hlen

theorem length_payload_le (p : Block 188) (adapt : Option Af) :
    (packetPayload p (payloadOffset adapt)).length ≤ 184 := by
  have hoff : 4 ≤ payloadOffset adapt := by cases adapt <;> simp [payloadOffset]
  rw [length_packetPayload]
  omega

/-- PES.ABSORB keeps the invariant, row by row. -/
theorem Asm.Inv.absorb {p : Block 188} {tsh : Tsh} {adapt : Option Af} {a' : Asm} {r : Result} (h : a.Inv cap)
    (habsorb : absorb cap p tsh adapt a = .ok (a', r)) : a'.Inv cap := by
  have hlen := length_payload_le p adapt
  have hrec := h.recordCounter tsh.continuityCounter
  rcases absorb_ok_cases habsorb with ⟨_, rfl, _⟩ | ⟨_, rfl, _⟩ | ⟨_, hrow⟩
  · exact h
  · exact Asm.inv_of_empty rfl rfl rfl
  · rcases hrow with ⟨_, hd, hparse, hfit, rfl, _⟩ | ⟨_, _, rfl, _⟩ | ⟨_, _, rfl, _⟩ |
      ⟨_, _, hs, hfit, hdone, rfl, _⟩ | ⟨_, _, hs, hfit, hmore, rfl, _⟩
    · exact Asm.inv_startedWith (by simp) hparse hfit hlen
    · exact Asm.inv_of_empty rfl rfl rfl
    · exact hrec
    · exact hrec.append_finished hs hlen hfit hdone
    · exact hrec.append hs hlen hfit hmore

end asm

/-! ### The machine's invariant -/

theorem ExecEffect.asm_inv {i : Instr} {s t : State} (h : ExecEffect s i t) (hs : s.asm.Inv s.cfg.bufCap) :
    t.asm.Inv s.cfg.bufCap := by
  rcases h.asm_cases with hasm | ⟨pid, _, hasm⟩ | ⟨p, tsh, adapt, r, habsorb⟩
  · rwa [hasm]
  · rw [hasm]
    exact Asm.inv_of_empty rfl rfl rfl
  · exact hs.absorb habsorb

/-- The header registers are only ever cleared or loaded with a parsed header (R22, R131). -/
theorem ExecEffect.tsh_header {i : Instr} {s t : State} (h : ExecEffect s i t)
    (hs : s.tsh = Tsh.zero ∨ s.tsh.syncByte = syncByte) : t.tsh = Tsh.zero ∨ t.tsh.syncByte = syncByte := by
  cases h with
  | absorbed _ hsync => exact .inr hsync
  | tshParsed htsh => exact .inr (parseTsh_syncByte htsh)
  | syncError => exact .inl rfl
  | tshRejected => exact .inl rfl
  | reset => exact .inl rfl
  | _ => exact hs

theorem State.Inv.execEffect {i : Instr} {s t : State} (hs : s.Inv) (h : ExecEffect s i t) : t.Inv where
  capacity := h.cfg_eq ▸ hs.capacity
  assembler := h.cfg_eq ▸ h.asm_inv hs.assembler
  header := h.tsh_header hs.header
  aligned := h.streamPos_eq ▸ hs.aligned

/-- Taking a request changes the host's side only, and a feed presents 188 bytes (R250). -/
theorem State.Inv.fetch {s s' : State} {c : Command} (hs : s.Inv) (h : fetch s = .ok (c, s')) : s'.Inv := by
  rcases fetch_ok_cases h with ⟨rest, _, rfl⟩ | ⟨rest, _, _, _, rfl⟩
  · exact { hs with }
  · exact { hs with aligned := (Nat.add_mod_right _ _).trans hs.aligned }

/-- Settles O46: the request is taken, then the operation executed, and both keep the invariant. -/
theorem stepKeepsInvariant : Obligations.StepKeepsInvariant := by
  intro s t hs hstep
  obtain ⟨c, s', i, hfetch, _, hexec⟩ := step_next_cases hstep
  exact (hs.fetch hfetch).execEffect (execEffect_of_exec hexec)

/-- Settles O45: an empty buffer while Idle. -/
theorem resetStateMeetsInvariant : Obligations.ResetStateMeetsInvariant where
  capacity := by decide
  assembler := Asm.inv_of_empty rfl rfl rfl
  header := .inl rfl
  aligned := rfl

end Sys2Proof.Machine
end

section
/-! PROOF. The header word selects the packet class (spec 30_encoding.md R111, R114). -/

namespace Sys2Proof

section headerWord

variable (b0 b1 b2 b3 : Byte)

/-! ### What the class table's mask keeps of the header word -/

/-- The bits of the header word, first byte in the highest bits (R90). -/
theorem getLsbD_headerWord (i : Nat) :
    (b0 ++ b1 ++ b2 ++ b3 : BitVec 32).getLsbD i =
      if i < 8 then b3.getLsbD i else if i < 16 then b2.getLsbD (i - 8)
      else if i < 24 then b1.getLsbD (i - 16) else b0.getLsbD (i - 24) := by
  show ((b0 ++ b1 ++ b2 : BitVec (8 + 8 + 8)) ++ b3 : BitVec (8 + 8 + 8 + 8)).getLsbD i = _
  simp only [BitVec.getLsbD_append, Nat.sub_sub]
  grind

theorem sync_of_headerWord : (b0 ++ b1 ++ b2 ++ b3 : BitVec 32).extractLsb' 24 8 = b0 := by
  ext i hi
  interval_cases i <;> simp [← BitVec.getLsbD_eq_getElem, getLsbD_headerWord]

theorem sync_of_maskedWord : ((b0 ++ b1 ++ b2 ++ b3 : BitVec 32) &&& 0xFF400030#32).extractLsb' 24 8 = b0 := by
  ext i hi
  interval_cases i <;> simp [← BitVec.getLsbD_eq_getElem, getLsbD_headerWord]

theorem payloadUnitStart_of_maskedWord :
    ((b0 ++ b1 ++ b2 ++ b3 : BitVec 32) &&& 0xFF400030#32).extractLsb' 22 1 = payloadUnitStartOf b1 := by
  ext i hi
  interval_cases i
  simp [← BitVec.getLsbD_eq_getElem, getLsbD_headerWord, payloadUnitStartOf]

theorem adaptationFieldControl_of_maskedWord :
    ((b0 ++ b1 ++ b2 ++ b3 : BitVec 32) &&& 0xFF400030#32).extractLsb' 4 2 = adaptationFieldControlOf b3 := by
  ext i hi
  interval_cases i <;> simp [← BitVec.getLsbD_eq_getElem, getLsbD_headerWord, adaptationFieldControlOf]

end headerWord

/-! ### The decoder on four header bytes and a body -/

section decode

variable {b0 b1 b2 b3 : Byte} {body : Block 184}

theorem decode_packet_of_sync (h : b0 = syncByte) :
    decode (.packet (b0 :: b1 :: b2 :: b3 :: body.data))
      = .ok (classOf (payloadUnitStartOf b1) (adaptationFieldControlOf b3) (headerFieldsOf b1 b2 b3) body) := by
  simp [decode, decodePacket, sizedBlock_data, h]

theorem decode_packet_of_badSync (h : b0 ≠ syncByte) :
    decode (.packet (b0 :: b1 :: b2 :: b3 :: body.data))
      = .ok (.pktSyncErr b0 ⟨b1 :: b2 :: b3 :: body.data, by simp [body.size]⟩) := by
  simp [decode, decodePacket, sizedBlock_data, h]

/-- A row of the class table: its match value `v` holds the sync byte and the two fields that name the class. -/
theorem decode_packet_of_maskedWord {v : BitVec 32} (hsync : v.extractLsb' 24 8 = syncByte)
    (hv : (b0 ++ b1 ++ b2 ++ b3 : BitVec 32) &&& 0xFF400030#32 = v) :
    decode (.packet (b0 :: b1 :: b2 :: b3 :: body.data))
      = .ok (classOf (v.extractLsb' 22 1) (v.extractLsb' 4 2) (headerFieldsOf b1 b2 b3) body) := by
  subst hv
  rw [sync_of_maskedWord] at hsync
  rw [payloadUnitStart_of_maskedWord, adaptationFieldControl_of_maskedWord, decode_packet_of_sync hsync]

end decode

/-- Settles O3: each match value is a row of the class table, and the word's high byte is the sync byte. -/
theorem headerWordSelectsClass : Obligations.HeaderWordSelectsClass := by
  intro b0 b1 b2 b3 body
  refine ⟨decode_packet_of_maskedWord rfl, decode_packet_of_maskedWord rfl, decode_packet_of_maskedWord rfl,
    decode_packet_of_maskedWord rfl, decode_packet_of_maskedWord rfl, decode_packet_of_maskedWord rfl,
    decode_packet_of_maskedWord rfl, decode_packet_of_maskedWord rfl, fun hsync => ?_⟩
  rw [sync_of_headerWord] at hsync
  exact ⟨_, rfl, decode_packet_of_badSync hsync⟩

/-- Settles O4: five header words before a zero body, and the model's layout of a 16-bit table word (log entry 14). -/
theorem knownWordsDecode : Obligations.KnownWordsDecode := by
  refine ⟨decode_packet_of_sync (body := ⟨_, rfl⟩) rfl, decode_packet_of_sync (body := ⟨_, rfl⟩) rfl,
    decode_packet_of_sync (body := ⟨_, rfl⟩) rfl, decode_packet_of_sync (body := ⟨_, rfl⟩) rfl,
    decode_packet_of_badSync (body := ⟨_, rfl⟩) (by decide), ?_⟩
  have hblock := sizedBlock_data (⟨[0, 0, 0, 0, 7, 0x10] ++ List.replicate 182 0#8, rfl⟩ : Block 188)
  have hword : tableCommand 16 0x0710 = some (.afParse ([0, 0, 0, 0, 7, 0x10] ++ List.replicate 182 0#8) 0) := rfl
  simp only [decodeTableWord, hword, decode, decodeBlock, hblock]

end Sys2Proof
end

section
/-! PROOF. What the eight packet classes do alike: they are the composite on their packet, they filter and detect loss, and they
ignore three header fields (spec 30_encoding.md R110, R112, R118; 43_pes_assembler.md R189, R190). -/

namespace Sys2Proof.Machine

/-- Settles O31: the operation the packet decodes to is the one that does what PKT does. -/
theorem classAgreesWithComposite : Obligations.ClassAgreesWithComposite := by
  intro p i s hdec
  obtain ⟨j, hj, hexec⟩ := decode_packet_exec_eq_pkt p
  obtain rfl : i = j := Except.ok.inj (hdec.symm.trans hj)
  exact hexec s

/-! ### The filter and the loss -/

/-- The packet of a class (R135). -/
def classPacket (u : BitVec 1) (c : BitVec 2) (h : HeaderFields) (body : Block 184) : Block 188 :=
  ⟨encodePacket u c h body, Laws.EncodedBlock.length_encodePacket u c h body⟩

theorem drop_classPacket (u : BitVec 1) (c : BitVec 2) (h : HeaderFields) (body : Block 184) :
    (classPacket u c h body).data.drop 4 = body.data := rfl

theorem decodedAf_classPacket (u : BitVec 1) (c : BitVec 2) (h : HeaderFields) (body : Block 184) :
    decodedAf (classPacket u c h body) (classTsh u c h) = if c = 2 ∨ c = 3 then some (bodyAf body) else none := by
  rw [decodedAf, packetAf_eq_bodyAf (drop_classPacket u c h body)]
  rfl

/-- Settles O30: each class is PES.ABSORB on its packet, whose steps S1 and S2 decide both clauses. -/
theorem classesFilterAndDetectLoss : Obligations.ClassesFilterAndDetectLoss := by
  intro u c h body s tsh af
  have hexec := exec_classOf (drop_classPacket u c h body) u c h s
  rw [decodedAf_classPacket] at hexec
  constructor
  · intro hforeign
    rw [hexec, absorb_of_foreign hforeign, commit_ok]
    rfl
  · intro hmiss
    rw [hexec, absorb_of_misses hmiss, commit_ok]
    rfl

/-! ### The ignored header fields -/

theorem payloadUnitStartOf_and_mask (b1 : Byte) : payloadUnitStartOf (b1 &&& 0x5F#8) = payloadUnitStartOf b1 := by
  ext i hi
  interval_cases i
  simp [payloadUnitStartOf]

theorem pidOf_and_mask (b1 b2 : Byte) : pidOf (b1 &&& 0x5F#8) b2 = pidOf b1 b2 := by
  simp [pidOf, BitVec.and_assoc]

theorem adaptationFieldControlOf_and_mask (b3 : Byte) :
    adaptationFieldControlOf (b3 &&& 0x3F#8) = adaptationFieldControlOf b3 := by
  ext i hi
  interval_cases i <;> simp [adaptationFieldControlOf]

theorem continuityCounterOf_and_mask (b3 : Byte) : continuityCounterOf (b3 &&& 0x3F#8) = continuityCounterOf b3 := by
  ext i hi
  interval_cases i <;> simp [continuityCounterOf]

/-- Header bytes that agree under the masks agree in every field that the packet step reads (R118). -/
theorem readFields_eq_of_masked_eq {b1 b1' b3 b3' : Byte} (h1 : b1 &&& 0x5F#8 = b1' &&& 0x5F#8)
    (h3 : b3 &&& 0x3F#8 = b3' &&& 0x3F#8) (b2 : Byte) :
    payloadUnitStartOf b1 = payloadUnitStartOf b1' ∧ adaptationFieldControlOf b3 = adaptationFieldControlOf b3' ∧
    (headerFieldsOf b1 b2 b3).pid = (headerFieldsOf b1' b2 b3').pid ∧
    (headerFieldsOf b1 b2 b3).continuityCounter = (headerFieldsOf b1' b2 b3').continuityCounter := by
  refine ⟨?_, ?_, ?_, ?_⟩
  · rw [← payloadUnitStartOf_and_mask, h1, payloadUnitStartOf_and_mask]
  · rw [← adaptationFieldControlOf_and_mask, h3, adaptationFieldControlOf_and_mask]
  · rw [headerFieldsOf, headerFieldsOf, ← pidOf_and_mask, h1, pidOf_and_mask]
  · rw [headerFieldsOf, headerFieldsOf, ← continuityCounterOf_and_mask, h3, continuityCounterOf_and_mask]

/-- Of the operand fields, PES.ABSORB reads the PID and the counter only (R118). -/
theorem absorb_classTsh_congr {h h' : HeaderFields} (hpid : h.pid = h'.pid)
    (hcc : h.continuityCounter = h'.continuityCounter) (cap : Nat) (p : Block 188) (u : BitVec 1) (c : BitVec 2)
    (adapt : Option Af) (a : Asm) :
    absorb cap p (classTsh u c h) adapt a = absorb cap p (classTsh u c h') adapt a := by
  cases h
  cases h'
  cases hpid
  cases hcc
  rfl

/-- PKT reads a packet beyond its header only through the bytes from address 4, so any packet that shares them will do. -/
theorem exec_pkt_of_drop_eq {p q : Block 188} (hdrop : p.data.drop 4 = q.data.drop 4) {u : BitVec 1} {c : BitVec 2}
    {h : HeaderFields} (hq : parseTsh q = some (classTsh u c h)) (s : State) :
    exec (.pkt q) s = commit (s.present (classTsh u c h) (decodedAf p (classTsh u c h)))
      (absorb s.cfg.bufCap p (classTsh u c h) (decodedAf p (classTsh u c h)) s.asm) := by
  let body : Block 184 := ⟨q.data.drop 4, by simp [q.size]⟩
  calc exec (.pkt q) s
      = _ := exec_pkt_of_parsed hq s
    _ = exec (classOf u c h body) s := (exec_classOf rfl u c h s).symm
    _ = _ := exec_classOf hdrop u c h s

/-- Two operations that present different headers and leave the assembler alike end alike but for TSH. -/
theorem commit_present_tsh (s : State) (tsh tsh' : Tsh) (af : Option Af) (x : Except Fault (Asm × Result)) :
    (∃ t u, commit (s.present tsh af) x = .next t ∧ commit (s.present tsh' af) x = .next u ∧
      u = { t with tsh := u.tsh }) ∨
    (∃ f, commit (s.present tsh af) x = .fault f ∧ commit (s.present tsh' af) x = .fault f) := by
  rcases x with f | ⟨a, r⟩
  · exact .inr ⟨f, rfl, rfl⟩
  · exact .inl ⟨_, _, rfl, rfl, rfl⟩

/-- Settles O51: the masked bytes hold every field the packet step reads; without the sync byte neither header is read. -/
theorem ignoredHeaderBitsDoNotMatter : Obligations.IgnoredHeaderBitsDoNotMatter := by
  intro p q s h0 h1 h2 h3 hdrop
  by_cases hsync : p.byte 0 = syncByte
  · have hp := parseTsh_eq_classTsh hsync
    have hq := parseTsh_eq_classTsh (h0 ▸ hsync : q.byte 0 = syncByte)
    obtain ⟨hu, hc, hpid, hcc⟩ := readFields_eq_of_masked_eq h1 h3 (p.byte 2)
    rw [← hu, ← hc, ← h2] at hq
    rw [exec_pkt_of_parsed hp, exec_pkt_of_drop_eq hdrop hq, absorb_classTsh_congr hpid hcc]
    exact commit_present_tsh ..
  · have hp := (parseTsh_eq_none_iff p).mpr hsync
    have hq := (parseTsh_eq_none_iff q).mpr (h0 ▸ hsync)
    exact .inl ⟨_, _, exec_pkt_of_invalid hp s, exec_pkt_of_invalid hq s, rfl⟩

end Sys2Proof.Machine
end

section
/-! PROOF. The encoder and the decoder are inverse to each other, on every operation and on every block (spec
30_encoding.md R91, R110; 40_ts_header.md R132, R135). -/

namespace Sys2Proof

/-! ### The encoder and the decoder on a packet class -/

theorem encode_classOf (u : BitVec 1) (c : BitVec 2) (h : HeaderFields) (body : Block 184) :
    encode (classOf u c h body) = .packet (encodePacket u c h body) := by
  have hafc : c = 0#2 ∨ c = 1#2 ∨ c = 2#2 ∨ c = 3#2 := by revert c; decide
  rcases BitVec.eq_zero_or_eq_one u with rfl | rfl <;> rcases hafc with rfl | rfl | rfl | rfl <;> rfl

theorem wellFormed_classOf (u : BitVec 1) (c : BitVec 2) (h : HeaderFields) (body : Block 184) :
    (classOf u c h body).wellFormed = true := by
  unfold classOf
  split_ifs <;> rfl

/-- The header fields are read back from the bytes they were written to (R135). -/
theorem headerFieldsOf_headerBytes (u : BitVec 1) (c : BitVec 2) (h : HeaderFields) :
    headerFieldsOf (headerByte1 h.errorIndicator u h.priority h.pid) (headerByte2 h.pid)
      (headerByte3 h.scramblingControl c h.continuityCounter) = h := by
  rw [headerFieldsOf, errorIndicatorOf_headerByte1, priorityOf_headerByte1, pidOf_headerBytes,
    scramblingControlOf_headerByte3, continuityCounterOf_headerByte3]

theorem decode_encodePacket (u : BitVec 1) (c : BitVec 2) (h : HeaderFields) (body : Block 184) :
    decode (.packet (encodePacket u c h body)) = .ok (classOf u c h body) := by
  rw [encodePacket, decode_packet_of_sync rfl, payloadUnitStartOf_headerByte1,
    adaptationFieldControlOf_headerByte3, headerFieldsOf_headerBytes]

/-- The header bytes are written back from the fields read from them (R132, R135). -/
theorem encodePacket_of_fields (b1 b2 b3 : Byte) (body : Block 184) :
    encodePacket (payloadUnitStartOf b1) (adaptationFieldControlOf b3) (headerFieldsOf b1 b2 b3) body
      = syncByte :: b1 :: b2 :: b3 :: body.data := by
  simp only [encodePacket, headerFieldsOf, headerByte1_of_fields, headerByte2_pidOf, headerByte3_of_fields]

/-! ### Whole blocks -/

theorem decodeBlock_data (p : Block 188) (op : Block 188 → Instr) : decodeBlock p.data op = .ok (op p) := by
  rw [decodeBlock, sizedBlock_data]

/-- A packet is its four header bytes and a body (R61, R91). -/
theorem exists_header_body {block : List Byte} (hlen : block.length = 188) :
    ∃ b0 b1 b2 b3, ∃ body : Block 184, block = b0 :: b1 :: b2 :: b3 :: body.data := by
  match block, hlen with
  | b0 :: b1 :: b2 :: b3 :: tail, hlen => exact ⟨b0, b1, b2, b3, ⟨tail, by simpa using hlen⟩, rfl⟩

theorem decode_encode_pktSyncErr {sync : Byte} (hsync : sync ≠ syncByte) (rest : Block 187) :
    decode (encode (.pktSyncErr sync rest)) = .ok (.pktSyncErr sync rest) := by
  obtain ⟨bytes, size⟩ := rest
  obtain ⟨b0, b1, b2, b3, body, hblock⟩ := exists_header_body (block := sync :: bytes) (congrArg Nat.succ size)
  cases hblock
  exact decode_packet_of_badSync hsync

/-- Settles O1: a class is read back from its packet, a sync error from its block, and the other commands carry
their operands as they are. -/
theorem decodeEncodeRoundTrip : Obligations.DecodeEncodeRoundTrip := by
  intro i hwf
  cases i with
  | pktContAfc0 h body => exact decode_encodePacket 0 0 h body
  | pktContAfc1 h body => exact decode_encodePacket 0 1 h body
  | pktContAfc2 h body => exact decode_encodePacket 0 2 h body
  | pktContAfc3 h body => exact decode_encodePacket 0 3 h body
  | pktStartAfc0 h body => exact decode_encodePacket 1 0 h body
  | pktStartAfc1 h body => exact decode_encodePacket 1 1 h body
  | pktStartAfc2 h body => exact decode_encodePacket 1 2 h body
  | pktStartAfc3 h body => exact decode_encodePacket 1 3 h body
  | pktSyncErr sync rest => exact decode_encode_pktSyncErr (bne_iff_ne.mp hwf) rest
  | tshParse p => exact decodeBlock_data p .tshParse
  | afParse p afc => exact decodeBlock_data p (.afParse · afc)
  | peshParse bytes => rfl
  | esStrip => rfl
  | pesAbsorb p => exact decodeBlock_data p .pesAbsorb
  | pkt p => exact decodeBlock_data p .pkt
  | reset pid => rfl

/-- Settles O2: with the sync byte a block is the packet of the class its header word selects, without it a sync error. -/
theorem everyPacketDecodesAndReencodes : Obligations.EveryPacketDecodesAndReencodes := by
  intro block hlen
  obtain ⟨b0, b1, b2, b3, body, rfl⟩ := exists_header_body hlen
  by_cases hsync : b0 = syncByte
  · subst hsync
    refine ⟨_, decode_packet_of_sync rfl, wellFormed_classOf .., ?_⟩
    rw [encode_classOf, encodePacket_of_fields]
  · exact ⟨_, decode_packet_of_badSync hsync, bne_iff_ne.mpr hsync, rfl⟩

end Sys2Proof
end

section
/-! PROOF. TSH.PARSE on its own: the fields it reads and its failure (spec 40_ts_header.md R131, R132). -/

namespace Sys2Proof

/-! ### The header fields as numbers (R92) -/

theorem toNat_errorIndicatorOf (b1 : Byte) : (errorIndicatorOf b1).toNat = b1.toNat / 128 := by
  rw [errorIndicatorOf, BitVec.extractLsb'_toNat, Nat.shiftRight_eq_div_pow]
  omega

theorem toNat_payloadUnitStartOf (b1 : Byte) : (payloadUnitStartOf b1).toNat = b1.toNat / 64 % 2 := by
  rw [payloadUnitStartOf, BitVec.extractLsb'_toNat, Nat.shiftRight_eq_div_pow]

theorem toNat_priorityOf (b1 : Byte) : (priorityOf b1).toNat = b1.toNat / 32 % 2 := by
  rw [priorityOf, BitVec.extractLsb'_toNat, Nat.shiftRight_eq_div_pow]

/-- The high five bits come from the first byte (R63, R92). -/
theorem toNat_pidOf (b1 b2 : Byte) : (pidOf b1 b2).toNat = b1.toNat % 32 * 256 + b2.toNat := by
  have hmask : (b1 &&& 0x1F#8).toNat = b1.toNat % 32 := Nat.and_two_pow_sub_one_eq_mod b1.toNat 5
  have hhigh : ((b1 &&& 0x1F#8).setWidth 13 <<< 8).toNat = (b1.toNat % 32) <<< 8 := by
    simp only [BitVec.toNat_shiftLeft, BitVec.toNat_setWidth, hmask, Nat.shiftLeft_eq]
    omega
  rw [pidOf, BitVec.toNat_or, hhigh, BitVec.toNat_setWidth_of_le (by decide),
    ← Nat.shiftLeft_add_eq_or_of_lt b2.isLt, Nat.shiftLeft_eq]

theorem toNat_scramblingControlOf (b3 : Byte) : (scramblingControlOf b3).toNat = b3.toNat / 64 := by
  rw [scramblingControlOf, BitVec.extractLsb'_toNat, Nat.shiftRight_eq_div_pow]
  omega

theorem toNat_adaptationFieldControlOf (b3 : Byte) :
    (adaptationFieldControlOf b3).toNat = b3.toNat / 16 % 4 := by
  rw [adaptationFieldControlOf, BitVec.extractLsb'_toNat, Nat.shiftRight_eq_div_pow]

theorem toNat_continuityCounterOf (b3 : Byte) : (continuityCounterOf b3).toNat = b3.toNat % 16 := by
  rw [continuityCounterOf, BitVec.extractLsb'_toNat, Nat.shiftRight_zero]

namespace Machine

/-- Settles O5: the registers hold the fields of bytes 1 to 3, and RESULT a free value (log entry 19). -/
theorem tshParseReadsEveryField : Obligations.TshParseReadsEveryField := by
  intro p s hsync
  exact ⟨_, exec_tshParse_of_parsed (parseTsh_eq_classTsh hsync) s, rfl, toNat_errorIndicatorOf _,
    toNat_payloadUnitStartOf _, toNat_priorityOf _, toNat_pidOf _ _, toNat_scramblingControlOf _,
    toNat_adaptationFieldControlOf _, toNat_continuityCounterOf _, Result.unstated_ne_invalidSync _, rfl⟩

/-- Settles O6: a parse that succeeds leaves a free value in RESULT, which is not InvalidSync, and one that fails
zeroes the header. -/
theorem tshParseFailureZeroesHeader : Obligations.TshParseFailureZeroesHeader := by
  intro p s
  by_cases hsync : p.byte 0 = syncByte
  · exact ⟨_, exec_tshParse_of_parsed (parseTsh_eq_classTsh hsync) s,
      iff_of_false (Result.unstated_ne_invalidSync _) (not_not.mpr hsync), fun h => absurd hsync h, rfl⟩
  · exact ⟨_, exec_tshParse_of_invalid ((parseTsh_eq_none_iff p).mpr hsync) s, iff_of_true rfl hsync,
      fun _ => rfl, rfl⟩

end Machine
end Sys2Proof
end

section
/-! PROOF. The adaptation field: AF.PARSE on its own, the field's size, and what the flag octet can change (spec
41_adaptation_field.md R151 to R156; 30_encoding.md R95, R120). -/

namespace Sys2Proof.Machine

/-! ### The field's size -/

/-- Settles O10: the size is a natural number and the length a byte. -/
theorem adaptationSizeNeverWraps : Obligations.AdaptationSizeNeverWraps := by
  intro f
  have hlen := f.length.isLt
  have hnum : f.numBytes = f.length.toNat + 1 := rfl
  have hoff : payloadOffset (some f) = 4 + f.numBytes := rfl
  omega

/-! ### AF.PARSE on its own -/

/-- Settles O9: AF.PARSE fails exactly where `afc` names no adaptation field; where it succeeds RESULT is a free value, which is
never InvalidAfc (log entry 19). -/
theorem afParseInvalidAfcExactlyOnZeroOrOne : Obligations.AfParseInvalidAfcExactlyOnZeroOrOne := by
  intro p afc s
  simp only [← hasAdaptationField_eq_false_iff]
  cases hafc : hasAdaptationField afc with
  | false => exact ⟨_, exec_afParse_of_invalid hafc p s, iff_of_true rfl rfl, iff_of_true rfl rfl, rfl⟩
  | true =>
    exact ⟨_, exec_afParse_of_field hafc p s, iff_of_false (Result.unstated_ne_invalidAfc _) nofun,
      iff_of_false nofun nofun, rfl⟩

/-- One bit of a byte as a number (R95). -/
theorem toNat_bit (b : Byte) (i : Nat) : (b.extractLsb' i 1).toNat = b.toNat / 2 ^ i % 2 := by
  rw [BitVec.extractLsb'_toNat, Nat.shiftRight_eq_div_pow]

/-- The highest bit leaves nothing above it to drop. -/
theorem toNat_highBit (b : Byte) : (b.extractLsb' 7 1).toNat = b.toNat / 128 := by
  rw [toNat_bit]
  omega

/-- The lowest bit has nothing below it to drop. -/
theorem toNat_lowBit (b : Byte) : (b.extractLsb' 0 1).toNat = b.toNat % 2 := by
  rw [toNat_bit, pow_zero, Nat.div_one]

/-- Settles O8: AF holds the length byte and the eight bits of the flag octet, and RESULT a free value (log entry 19). -/
theorem afParseReadsLengthAndFlags : Obligations.AfParseReadsLengthAndFlags := by
  intro p afc s hafc
  exact ⟨_, packetAf p, exec_afParse_of_field ((hasAdaptationField_iff afc).mpr hafc) p s, rfl, rfl,
    toNat_highBit _, toNat_bit _ 6, toNat_bit _ 5, toNat_bit _ 4, toNat_bit _ 3, toNat_bit _ 2, toNat_bit _ 1,
    toNat_lowBit _, Result.unstated_ne_invalidAfc _, rfl⟩

/-! ### What PKT reads of a packet -/

theorem byte_eq_of_take_eq {n k : Nat} {p q : Block n} (h : p.data.take k = q.data.take k) {i : Fin n}
    (hi : i.val < k) : p.byte i = q.byte i := by
  rw [Block.byte_eq_iff, ← List.getElem?_take_of_lt hi, h, List.getElem?_take_of_lt hi, ← Block.byte_eq_iff]

/-- TSH.PARSE reads the first four bytes only (R91). -/
theorem parseTsh_eq_of_take_eq {p q : Block 188} (h : p.data.take 4 = q.data.take 4) : parseTsh p = parseTsh q := by
  have h0 : p.byte 0 = q.byte 0 := byte_eq_of_take_eq h (by decide)
  have h1 : p.byte 1 = q.byte 1 := byte_eq_of_take_eq h (by decide)
  have h2 : p.byte 2 = q.byte 2 := byte_eq_of_take_eq h (by decide)
  have h3 : p.byte 3 = q.byte 3 := byte_eq_of_take_eq h (by decide)
  rw [parseTsh, parseTsh, h0, h1, h2, h3]

/-- Of the adaptation field, the payload offset takes the length byte only (R192). -/
theorem offsetOf_eq_of_length_eq {p q : Block 188} (h : p.byte 4 = q.byte 4) (tsh : Tsh) :
    offsetOf p tsh = offsetOf q tsh := by
  rw [offsetOf, offsetOf, h]

/-- A field of length 1 or more holds the flag octet, so the payload starts behind it (R152, R192). -/
theorem six_le_offsetOf {p : Block 188} {tsh : Tsh} (haf : decodedAf p tsh ≠ none) (hlen : p.byte 4 ≠ 0) :
    6 ≤ offsetOf p tsh := by
  have hafc : tsh.adaptationFieldControl = 2#2 ∨ tsh.adaptationFieldControl = 3#2 := by
    by_contra hnone
    exact haf (if_neg hnone)
  have hpos : (p.byte 4).toNat ≠ 0 := fun h => hlen (BitVec.eq_of_toNat_eq h)
  rw [offsetOf, if_pos hafc]
  omega

/-- Packets that agree from an address on have the same payload at every offset from there. -/
theorem packetPayload_eq_of_drop_eq {p q : Block 188} {n offset : Nat} (h : p.data.drop n = q.data.drop n)
    (hoff : n ≤ offset) : packetPayload p offset = packetPayload q offset := by
  rw [packetPayload, packetPayload, ← Nat.add_sub_cancel' hoff, ← List.drop_drop, h, List.drop_drop]

/-- PES.ABSORB reads the packet and AF through the payload only (R192, R193). -/
theorem absorb_eq_of_payload_eq {p q : Block 188} {af af' : Option Af}
    (h : packetPayload p (payloadOffset af) = packetPayload q (payloadOffset af')) (cap : Nat) (tsh : Tsh) (a : Asm) :
    absorb cap p tsh af a = absorb cap q tsh af' a := by
  rw [absorb, absorb, h]

/-- Two operations that present different adaptation fields and leave the assembler alike end alike but for AF. -/
theorem commit_present_af (s : State) (tsh : Tsh) (af af' : Option Af) (x : Except Fault (Asm × Result)) :
    (∃ t u, commit (s.present tsh af) x = .next t ∧ commit (s.present tsh af') x = .next u ∧
      u = { t with af := u.af }) ∨
    (∃ f, commit (s.present tsh af) x = .fault f ∧ commit (s.present tsh af') x = .fault f) := by
  cases x with
  | error f => exact .inr ⟨f, rfl, rfl⟩
  | ok ar => exact .inl ⟨_, _, rfl, rfl, rfl⟩

/-- Settles O52: the flag octet lies behind the length byte and before the payload, so the two packets have one header and one
payload. -/
theorem adaptationFlagsDoNotMatter : Obligations.AdaptationFlagsDoNotMatter := by
  intro p q tsh s hp haf hlen htake hdrop
  have hheader : p.data.take 4 = q.data.take 4 := by
    simpa [List.take_take] using congrArg (List.take 4) htake
  have hq : parseTsh q = some tsh := (parseTsh_eq_of_take_eq hheader).symm.trans hp
  have hoff : offsetOf p tsh = offsetOf q tsh :=
    offsetOf_eq_of_length_eq (byte_eq_of_take_eq htake (by decide)) tsh
  have hpayload : packetPayload p (payloadOffset (decodedAf p tsh))
      = packetPayload q (payloadOffset (decodedAf q tsh)) := by
    rw [payloadOffset_decodedAf, payloadOffset_decodedAf, ← hoff]
    exact packetPayload_eq_of_drop_eq hdrop (six_le_offsetOf haf hlen)
  rw [exec_pkt_of_parsed hp, exec_pkt_of_parsed hq, absorb_eq_of_payload_eq hpayload]
  exact commit_present_af ..

end Sys2Proof.Machine
end

section
/-! PROOF. PESH.PARSE on its own: the header it hands back and its failure (spec 42_pes_header.md R170, R171, R176). -/

namespace Sys2Proof.Machine

/-- Settles O11: the header is the first six bytes, whatever stands behind them. -/
theorem peshParseReturnsBigEndianFields : Obligations.PeshParseReturnsBigEndianFields := by
  intro b0 b1 b2 b3 b4 b5 more s
  have hparse : parsePesHeader (b0 :: b1 :: b2 :: b3 :: b4 :: b5 :: more) = some ⟨b0 ++ b1 ++ b2, b3, b4 ++ b5⟩ := rfl
  exact ⟨_, _, exec_peshParse_of_parsed hparse s, rfl, toNat_bytes3 b0 b1 b2, rfl, toNat_bytes2 b4 b5⟩

/-- Settles O12: the parse has a header to hand back exactly from six bytes on. -/
theorem peshParseTruncatedBelowSix : Obligations.PeshParseTruncatedBelowSix := by
  intro bytes s
  by_cases hlen : bytes.length < 6
  · have hparse := (parsePesHeader_eq_none_iff bytes).mpr hlen
    exact ⟨_, exec_peshParse_of_truncated hparse s, rfl, fun _ => rfl, fun h => absurd hlen h.not_gt⟩
  · obtain ⟨hd, hparse⟩ := parsePesHeader_isSome (Nat.not_lt.mp hlen)
    exact ⟨_, exec_peshParse_of_parsed hparse s, rfl, fun h => absurd h hlen, fun _ => ⟨hd, rfl⟩⟩

end Sys2Proof.Machine
end

section
/-! PROOF. PKT by the rows of the transition table: what an accepted packet does (spec 43_pes_assembler.md R189 to R201, R205). -/

namespace Sys2Proof.Machine

/-! ### Steps S5 and S6 as register updates -/

theorem Asm.startedWith_eq (a : Asm) (hd : PesHeader) (bs : List Byte) : a.startedWith hd bs =
    { a with started := true, header := hd, buffer := cellsFrom 0 bs, bytesAccumulated := bs.length } := by
  simp [Asm.startedWith, Asm.append, Asm.setStarted, Asm.setHeader, Asm.bufReset, Memory.writeBytes]

/-- The assembler after a continuation's bytes: Idle exactly when they reach the declared total (R200, R201). -/
def Asm.continuedWith (a : Asm) (bs : List Byte) : Asm := (a.append bs).setStarted !(a.append bs).complete

/-- `AssemblingFinished` or `AssemblingContinue`, as the declared total is reached or not (R200, R201). -/
def continuationResult (done : Bool) : Result := if done then .assemblingFinished else .assemblingContinue

theorem Asm.setStarted_self {a : Asm} {b : Bool} (h : a.started = b) : a.setStarted b = a := by
  subst h
  rfl

theorem continuePes_of_room {cap : Nat} {bs : List Byte} {a : Asm} (hs : a.started = true)
    (hfit : a.bytesAccumulated + bs.length ≤ cap) :
    continuePes cap bs a = .ok (a.continuedWith bs, continuationResult (a.append bs).complete) := by
  rw [continuePes_of_fits hs hfit, Asm.continuedWith]
  cases (a.append bs).complete with
  | true => rfl
  | false => rw [Bool.not_false, Asm.setStarted_self (a := a.append bs) hs]; rfl

theorem read_cellsFrom_zero (bs : List Byte) (x : Nat) : Memory.read (cellsFrom 0 bs) x = bs[x]? := by
  rw [read_cellsFrom, if_pos (Nat.zero_le x), Nat.sub_zero]

section accepted

variable {cap : Nat} {p : Block 188} {tsh : Tsh} {a : Asm}

theorem absorb_of_append (h : a.Expects tsh.pid tsh.continuityCounter) (hu : tsh.payloadUnitStart = 0#1)
    (hs : a.started = true) (hp : CarriesPayload tsh) (hfit : a.bytesAccumulated + (188 - offsetOf p tsh) ≤ cap) :
    absorb cap p tsh (decodedAf p tsh) a =
      .ok ((a.recordCounter tsh.continuityCounter).continuedWith (packetPayload p (offsetOf p tsh)),
        continuationResult (a.append (packetPayload p (offsetOf p tsh))).complete) := by
  exact (absorb_of_continuation h hu hp).trans (continuePes_of_room hs (by simpa using hfit))

theorem exists_header_of_offset_le (p : Block 188) {offset : Nat} (h : offset ≤ 182) :
    ∃ hd, parsePesHeader (p.data.drop offset) = some hd :=
  parsePesHeader_isSome (by rw [List.length_drop, p.size]; omega)

/-- A start whose header fits (R195). -/
theorem absorb_opens {hd : PesHeader} (h : a.Expects tsh.pid tsh.continuityCounter) (hu : tsh.payloadUnitStart = 1#1)
    (hparse : parsePesHeader (p.data.drop (offsetOf p tsh)) = some hd) (hcap : 188 - offsetOf p tsh ≤ cap) :
    absorb cap p tsh (decodedAf p tsh) a = .ok ({ a with
      lastCC := some tsh.continuityCounter, started := true, header := hd
      buffer := cellsFrom 0 (p.data.drop (offsetOf p tsh)), bytesAccumulated := 188 - offsetOf p tsh },
      .assemblingStarted) := by
  have hlen := length_packetPayload p (offsetOf p tsh)
  have hstart : absorb cap p tsh (decodedAf p tsh) a = _ :=
    (absorb_of_start h hu).trans (startPes_of_parsed hparse (by rwa [hlen]))
  rw [hstart, Asm.startedWith_eq, hlen]
  rfl

/-- A start with fewer than six bytes left (R196). -/
theorem absorb_goes_idle (h : a.Expects tsh.pid tsh.continuityCounter) (hu : tsh.payloadUnitStart = 1#1)
    (hoff : 183 ≤ offsetOf p tsh) :
    absorb cap p tsh (decodedAf p tsh) a = .ok ({ a with
      lastCC := some tsh.continuityCounter, started := false, buffer := [], bytesAccumulated := 0 },
      if a.started = true then .assemblingFinished else .unexpectedPid) := by
  rw [absorb_of_start h hu, startPes_of_truncated (by rw [length_packetPayload]; omega)]
  rfl

/-- A continuation with nothing to do (R198). -/
theorem absorb_records_counter (h : a.Expects tsh.pid tsh.continuityCounter) (hu : tsh.payloadUnitStart = 0#1)
    (hnone : a.started = false ∨ ¬ CarriesPayload tsh) :
    absorb cap p tsh (decodedAf p tsh) a =
      .ok ({ a with lastCC := some tsh.continuityCounter }, .unexpectedPid) := by
  by_cases hp : CarriesPayload tsh
  · have hs : a.started = false := hnone.resolve_right (not_not_intro hp)
    exact (absorb_of_continuation h hu hp).trans (continuePes_of_idle hs)
  · rw [absorb_of_no_payload h hu hp]
    rfl

/-- A continuation with payload while Assembling (R199 to R201). -/
theorem absorb_appends (h : a.Expects tsh.pid tsh.continuityCounter) (hu : tsh.payloadUnitStart = 0#1)
    (hs : a.started = true) (hp : CarriesPayload tsh) (hfit : a.bytesAccumulated + (188 - offsetOf p tsh) ≤ cap) :
    ∃ buf done, (done = true ↔ a.Reaches (188 - offsetOf p tsh)) ∧
      (∀ x, Memory.read buf x =
        if a.bytesAccumulated ≤ x ∧ x < a.bytesAccumulated + (188 - offsetOf p tsh)
        then p.data[offsetOf p tsh + (x - a.bytesAccumulated)]? else Memory.read a.buffer x) ∧
      absorb cap p tsh (decodedAf p tsh) a = .ok ({ a with
        lastCC := some tsh.continuityCounter, started := !done, buffer := buf
        bytesAccumulated := a.bytesAccumulated + (188 - offsetOf p tsh) },
        if done then .assemblingFinished else .assemblingContinue) := by
  have hlen := length_packetPayload p (offsetOf p tsh)
  refine ⟨Memory.writeBytes a.buffer a.bytesAccumulated (packetPayload p (offsetOf p tsh)),
    (a.append (packetPayload p (offsetOf p tsh))).complete, ?_, fun x => ?_, ?_⟩
  · rw [Asm.complete_append_iff, hlen]
  · rw [Memory.read_writeBytes, hlen, getElem?_packetPayload]
  · rw [absorb_of_append h hu hs hp hfit, ← hlen]
    rfl

end accepted

/-! ### PKT on a packet with the sync byte -/

/-- PKT ends as PES.ABSORB does, with TSH and AF decoded from the packet (R240). -/
theorem exec_pkt_of_absorb {p : Block 188} {tsh : Tsh} {s : State} {a : Asm} {r : Result} (hp : parseTsh p = some tsh)
    (h : absorb s.cfg.bufCap p tsh (decodedAf p tsh) s.asm = .ok (a, r)) :
    exec (.pkt p) s = .next { s with tsh := tsh, af := decodedAf p tsh, result := r, asm := a } := by
  rw [exec_pkt_of_parsed hp, h, commit_ok]
  rfl

theorem exec_pkt_of_absorb_fault {p : Block 188} {tsh : Tsh} {s : State} {f : Fault} (hp : parseTsh p = some tsh)
    (h : absorb s.cfg.bufCap p tsh (decodedAf p tsh) s.asm = .error f) : exec (.pkt p) s = .fault f := by
  rw [exec_pkt_of_parsed hp, h, commit_error]

/-- Settles O14: step S1 hands the assembler back as it was. -/
theorem foreignPidLeavesAssembler : Obligations.ForeignPidLeavesAssembler := by
  intro p tsh s hp hforeign
  exact exec_pkt_of_absorb hp (absorb_of_foreign hforeign _)

/-- Settles O17, by step S5 with six bytes or more. -/
theorem startOpensAssembly : Obligations.StartOpensAssembly := by
  intro p tsh s hp hexp hu hoff hcap
  obtain ⟨hd, hparse⟩ := exists_header_of_offset_le p hoff
  exact ⟨hd, _, hparse, fun x => by rw [read_cellsFrom_zero, List.getElem?_drop],
    exec_pkt_of_absorb hp (absorb_opens hexp hu hparse hcap)⟩

/-- Settles O18, by step S5 with fewer than six bytes. -/
theorem startWithoutHeaderGoesIdle : Obligations.StartWithoutHeaderGoesIdle := by
  intro p tsh s hp hexp hu hoff
  exact exec_pkt_of_absorb hp (absorb_goes_idle hexp hu hoff)

/-- Settles O19, by step S6 where there is nothing to append. -/
theorem nothingToDoRecordsCounterOnly : Obligations.NothingToDoRecordsCounterOnly := by
  intro p tsh s hp hexp hu hnone
  exact exec_pkt_of_absorb hp (absorb_records_counter hexp hu hnone)

/-- Settles O20, by step S6 with payload. -/
theorem continuationAppendsAndCompletes : Obligations.ContinuationAppendsAndCompletes := by
  intro p tsh s hp hexp hu hs hpay hfit
  obtain ⟨buf, done, hdone, hread, habsorb⟩ := absorb_appends hexp hu hs hpay hfit
  exact ⟨buf, done, hdone, hread, exec_pkt_of_absorb hp habsorb⟩

/-- Settles O21: BufAppend faults, on a start after BufReset and on a continuation behind the bytes held. -/
theorem appendBeyondCapacityFaults : Obligations.AppendBeyondCapacityFaults := by
  intro p tsh s hp hexp
  have hlen := length_packetPayload p (offsetOf p tsh)
  constructor
  · intro hu hoff hover
    refine exec_pkt_of_absorb_fault hp ?_
    rw [absorb_of_start hexp hu, startPes_of_overflow (by omega) (by omega)]
  · intro hu hs hpay hover
    exact exec_pkt_of_absorb_fault hp
      ((absorb_of_continuation hexp hu hpay).trans (continuePes_of_overflow hs (by rwa [hlen])))

end Sys2Proof.Machine
end

section
/-! PROOF. The transition table: its rows are exclusive and complete, and PES.ABSORB follows it (spec 43_pes_assembler.md R205). -/

namespace Sys2Proof.Machine

/-! ### The row of a packet -/

section row

variable {p : Block 188} {tsh : Tsh} {a : Asm} {n : Nat}

/-- The row of the table by the model's own tests; 0 where the counter is not known (R40 (b)). -/
def rowOf (p : Block 188) (tsh : Tsh) (a : Asm) : Nat :=
  match admission tsh a with
  | .foreign => 1
  | .lost => 2
  | .unknownCounter => 0
  | .accepted =>
    if tsh.payloadUnitStart = 1#1 then
      if offsetOf p tsh ≤ 182 then (if a.started then 6 else 3) else (if a.started then 7 else 4)
    else if a.started then
      if hasPayload tsh.adaptationFieldControl then
        if (a.append (packetPayload p (offsetOf p tsh))).complete then 10 else 9
      else 8
    else 5

theorem rowOf_of_expects (h : a.Expects tsh.pid tsh.continuityCounter) : rowOf p tsh a =
    if tsh.payloadUnitStart = 1#1 then
      if offsetOf p tsh ≤ 182 then (if a.started then 6 else 3) else (if a.started then 7 else 4)
    else if a.started then
      if hasPayload tsh.adaptationFieldControl then
        if (a.append (packetPayload p (offsetOf p tsh))).complete then 10 else 9
      else 8
    else 5 := by
  rw [rowOf, (admission_eq_accepted_iff tsh a).mpr h]

theorem complete_append_payload_iff (p : Block 188) (tsh : Tsh) (a : Asm) :
    (a.append (packetPayload p (offsetOf p tsh))).complete = true ↔ a.Reaches (188 - offsetOf p tsh) := by
  rw [Asm.complete_append_iff, length_packetPayload]

/-- A guard that holds names the row. -/
theorem rowOf_eq_of_rowGuard (h : rowGuard p tsh a n) : rowOf p tsh a = n := by
  match n, h with
  | 1, h => rw [rowOf, (admission_eq_foreign_iff tsh a).mpr h]
  | 2, h => rw [rowOf, (admission_eq_lost_iff tsh a).mpr h]
  | 3, ⟨hs, he, hu, hoff⟩ => simp [rowOf_of_expects he, hs, hu, hoff]
  | 4, ⟨hs, he, hu, hoff⟩ => simp [rowOf_of_expects he, hs, hu, Nat.not_le.mpr hoff]
  | 5, ⟨hs, he, hu⟩ => simp [rowOf_of_expects he, hs, hu]
  | 6, ⟨hs, he, hu, hoff⟩ => simp [rowOf_of_expects he, hs, hu, hoff]
  | 7, ⟨hs, he, hu, hoff⟩ => simp [rowOf_of_expects he, hs, hu, Nat.not_le.mpr hoff]
  | 8, ⟨hs, he, hu, hpay⟩ =>
    have hpay : ¬ hasPayload tsh.adaptationFieldControl = true := fun h => hpay ((hasPayload_iff _).mp h)
    simp [rowOf_of_expects he, hs, hu, hpay]
  | 9, ⟨hs, he, hu, hpay, hmore⟩ =>
    simp [rowOf_of_expects he, hs, hu, (hasPayload_iff _).mpr hpay, complete_append_payload_iff, hmore]
  | 10, ⟨hs, he, hu, hpay, hdone⟩ =>
    simp [rowOf_of_expects he, hs, hu, (hasPayload_iff _).mpr hpay, complete_append_payload_iff, hdone]

/-- With a known counter some guard holds, by the columns of the table from left to right. -/
theorem exists_rowGuard (hknown : a.started = true → a.lastCC ≠ none) (p : Block 188) (tsh : Tsh) :
    ∃ n, rowGuard p tsh a n := by
  rcases Asm.admission_cases hknown tsh.pid tsh.continuityCounter with hforeign | hmiss | hexp
  · exact ⟨1, hforeign⟩
  · exact ⟨2, hmiss⟩
  rcases BitVec.eq_zero_or_eq_one tsh.payloadUnitStart with hu | hu
  · cases hs : a.started with
    | false => exact ⟨5, hs, hexp, hu⟩
    | true =>
      by_cases hpay : CarriesPayload tsh
      · by_cases hdone : a.Reaches (188 - offsetOf p tsh)
        · exact ⟨10, hs, hexp, hu, hpay, hdone⟩
        · exact ⟨9, hs, hexp, hu, hpay, hdone⟩
      · exact ⟨8, hs, hexp, hu, hpay⟩
  · rcases Nat.lt_or_ge 182 (offsetOf p tsh) with hoff | hoff
    · cases hs : a.started with
      | false => exact ⟨4, hs, hexp, hu, hoff⟩
      | true => exact ⟨7, hs, hexp, hu, hoff⟩
    · cases hs : a.started with
      | false => exact ⟨3, hs, hexp, hu, hoff⟩
      | true => exact ⟨6, hs, hexp, hu, hoff⟩

end row

/-- Settles O22: some guard holds, and every guard that holds names the one row `rowOf`. -/
theorem transitionRowsAreExclusiveAndComplete : Obligations.TransitionRowsAreExclusiveAndComplete := by
  intro p tsh a hknown
  obtain ⟨n, hn⟩ := exists_rowGuard hknown p tsh
  exact ⟨n, hn, fun m hm => (rowOf_eq_of_rowGuard hm).symm.trans (rowOf_eq_of_rowGuard hn)⟩

/-! ### PES.ABSORB follows its row -/

section effect

variable {cap : Nat} {p : Block 188} {tsh : Tsh} {a : Asm} {n : Nat}

/-- The rows that open an assembly, T3 and T6. -/
theorem absorb_start_row (hroom : RoomFor cap p tsh a) (he : a.Expects tsh.pid tsh.continuityCounter)
    (hu : tsh.payloadUnitStart = 1) (hoff : offsetOf p tsh ≤ 182) :
    ∃ a' r, absorb cap p tsh (decodedAf p tsh) a = .ok (a', r) ∧ rowEffect p tsh a a' r 3 := by
  obtain ⟨hd, hparse⟩ := exists_header_of_offset_le p hoff
  exact ⟨_, _, absorb_opens he hu hparse hroom.1, rfl, rfl, rfl, rfl, rfl, hparse,
    fun x => by rw [read_cellsFrom_zero, List.getElem?_drop]⟩

/-- The rows that append, T9 and T10. -/
theorem absorb_append_row (hroom : RoomFor cap p tsh a) (hs : a.started = true)
    (he : a.Expects tsh.pid tsh.continuityCounter) (hu : tsh.payloadUnitStart = 0) (hpay : CarriesPayload tsh) :
    ∃ a' r, absorb cap p tsh (decodedAf p tsh) a = .ok (a', r) ∧ rowEffect p tsh a a' r 9 := by
  obtain ⟨buf, done, hdone, hread, habsorb⟩ := absorb_appends he hu hs hpay (hroom.2 hu)
  refine ⟨_, _, habsorb, rfl, rfl, rfl, rfl, hread, ?_⟩
  cases done with
  | false => exact .inl ⟨fun hreach => absurd (hdone.mpr hreach) nofun, rfl, rfl⟩
  | true => exact .inr ⟨hdone.mp rfl, rfl, rfl⟩

theorem absorb_follows_row (hroom : RoomFor cap p tsh a) (h : rowGuard p tsh a n) :
    ∃ a' r, absorb cap p tsh (decodedAf p tsh) a = .ok (a', r) ∧ rowEffect p tsh a a' r n := by
  match n, h with
  | 1, hforeign => exact ⟨_, _, absorb_of_foreign hforeign _, rfl, rfl⟩
  | 2, hmiss => exact ⟨_, _, absorb_of_misses hmiss _, rfl, rfl⟩
  | 3, ⟨_, he, hu, hoff⟩ => exact absorb_start_row hroom he hu hoff
  | 4, ⟨hs, he, hu, hoff⟩ => exact ⟨_, _, absorb_goes_idle he hu hoff, rfl, by simp [hs]⟩
  | 5, ⟨hs, he, hu⟩ => exact ⟨_, _, absorb_records_counter he hu (.inl hs), rfl, rfl⟩
  | 6, ⟨_, he, hu, hoff⟩ => exact absorb_start_row hroom he hu hoff
  | 7, ⟨hs, he, hu, hoff⟩ => exact ⟨_, _, absorb_goes_idle he hu hoff, rfl, if_pos hs⟩
  | 8, ⟨_, he, hu, hpay⟩ => exact ⟨_, _, absorb_records_counter he hu (.inr hpay), rfl, rfl⟩
  | 9, ⟨hs, he, hu, hpay, _⟩ => exact absorb_append_row hroom hs he hu hpay
  | 10, ⟨hs, he, hu, hpay, _⟩ => exact absorb_append_row hroom hs he hu hpay

end effect

/-- Settles O23: with its operands decoded from the packet, PES.ABSORB is `absorb` with the registers as arguments. -/
theorem absorbFollowsTransitionTable : Obligations.AbsorbFollowsTransitionTable := by
  intro p s n hp haf hroom hrow
  obtain ⟨a', r, habsorb, heffect⟩ := absorb_follows_row hroom hrow
  refine ⟨(s.setAsm a').setResult r, ?_, heffect, rfl⟩
  rw [exec_pesAbsorb_of_operands hp haf, habsorb, commit_ok]

end Sys2Proof.Machine
end

section
/-! PROOF. The packet classes, row by row: a class is PKT on its packet (spec 30_encoding.md R110; 43_pes_assembler.md R210 to R217). -/

namespace Sys2Proof.Machine

/-! ### The packet of a class -/

theorem parseTsh_classPacket (u : BitVec 1) (c : BitVec 2) (h : HeaderFields) (body : Block 184) :
    parseTsh (classPacket u c h body) = some (classTsh u c h) := by
  have h1 : (classPacket u c h body).byte 1 = headerByte1 h.errorIndicator u h.priority h.pid := rfl
  have h2 : (classPacket u c h body).byte 2 = headerByte2 h.pid := rfl
  have h3 : (classPacket u c h body).byte 3 = headerByte3 h.scramblingControl c h.continuityCounter := rfl
  rw [parseTsh_eq_classTsh rfl, h1, h2, h3]
  simp only [headerFieldsOf, errorIndicatorOf_headerByte1, payloadUnitStartOf_headerByte1, priorityOf_headerByte1,
    pidOf_headerBytes, scramblingControlOf_headerByte3, adaptationFieldControlOf_headerByte3,
    continuityCounterOf_headerByte3]

theorem exec_classOf_eq_pkt (u : BitVec 1) (c : BitVec 2) (h : HeaderFields) (body : Block 184) (s : State) :
    exec (classOf u c h body) s = exec (.pkt (classPacket u c h body)) s := by
  rw [exec_classOf (drop_classPacket u c h body), exec_pkt_of_parsed (parseTsh_classPacket u c h body)]

theorem offsetOf_classPacket (u : BitVec 1) (c : BitVec 2) (h : HeaderFields) (body : Block 184) :
    offsetOf (classPacket u c h body) (classTsh u c h)
      = if c = 2 ∨ c = 3 then 4 + (1 + (body.byte 0).toNat) else 4 := by
  have h4 : (classPacket u c h body).byte 4 = body.byte 0 := rfl
  rw [offsetOf, h4, ← Nat.add_assoc]
  rfl

/-- Behind the header word, the packet's bytes are the body's. -/
theorem drop_add_classPacket (u : BitVec 1) (c : BitVec 2) (h : HeaderFields) (body : Block 184) (n : Nat) :
    (classPacket u c h body).data.drop (4 + n) = body.data.drop n := by
  rw [← List.drop_drop, drop_classPacket]

theorem getElem?_classPacket (u : BitVec 1) (c : BitVec 2) (h : HeaderFields) (body : Block 184) (n : Nat) :
    (classPacket u c h body).data[4 + n]? = body.data[n]? := by
  rw [← List.getElem?_drop, drop_classPacket]

/-- A class ends as PES.ABSORB does on its packet, with the class's header and the body's adaptation field (R111, R240). -/
theorem exec_classOf_of_absorb {u : BitVec 1} {c : BitVec 2} {h : HeaderFields} {body : Block 184} {s : State} {a : Asm}
    {r : Result} (habsorb : absorb s.cfg.bufCap (classPacket u c h body) (classTsh u c h)
      (decodedAf (classPacket u c h body) (classTsh u c h)) s.asm = .ok (a, r)) :
    exec (classOf u c h body) s = .next { s with
      tsh := classTsh u c h, af := if c = 2 ∨ c = 3 then some (bodyAf body) else none, result := r, asm := a } := by
  rw [exec_classOf_eq_pkt, exec_pkt_of_absorb (parseTsh_classPacket u c h body) habsorb, decodedAf_classPacket]

/-! ### The classes by their rows, with the payload from the body's byte `n` on -/

section rows

variable {c : BitVec 2} {h : HeaderFields} {body : Block 184} {s : State} {n : Nat}
  (hexp : s.asm.Expects h.pid h.continuityCounter)
include hexp

theorem exec_classOf_records_counter (hnone : s.asm.started = false ∨ ¬ (c = 1 ∨ c = 3)) :
    exec (classOf 0 c h body) s = .next { s with
      tsh := classTsh 0 c h, af := if c = 2 ∨ c = 3 then some (bodyAf body) else none, result := .unexpectedPid
      asm := { s.asm with lastCC := some h.continuityCounter } } :=
  exec_classOf_of_absorb (absorb_records_counter hexp rfl hnone)

theorem exec_classOf_appends (hoff : offsetOf (classPacket 0 c h body) (classTsh 0 c h) = 4 + n)
    (hpay : c = 1 ∨ c = 3) (hs : s.asm.started = true) (hfit : s.asm.bytesAccumulated + (184 - n) ≤ s.cfg.bufCap) :
    ∃ buf done, (done = true ↔ s.asm.Reaches (184 - n)) ∧
      (∀ x, Memory.read buf x =
        if s.asm.bytesAccumulated ≤ x ∧ x < s.asm.bytesAccumulated + (184 - n)
        then body.data[n + (x - s.asm.bytesAccumulated)]? else Memory.read s.asm.buffer x) ∧
      exec (classOf 0 c h body) s = .next { s with
        tsh := classTsh 0 c h, af := if c = 2 ∨ c = 3 then some (bodyAf body) else none
        result := if done then .assemblingFinished else .assemblingContinue
        asm := { s.asm with
          lastCC := some h.continuityCounter, started := !done, buffer := buf
          bytesAccumulated := s.asm.bytesAccumulated + (184 - n) } } := by
  have hcount : 188 - (4 + n) = 184 - n := Nat.sub_add_eq 188 4 n
  obtain ⟨buf, done, hdone, hread, habsorb⟩ := absorb_appends (tsh := classTsh 0 c h) (p := classPacket 0 c h body)
    (cap := s.cfg.bufCap) hexp rfl hs hpay (by rwa [hoff, hcount])
  simp only [hoff, hcount, Nat.add_assoc, getElem?_classPacket] at hdone hread habsorb
  exact ⟨buf, done, hdone, hread, exec_classOf_of_absorb habsorb⟩

theorem exec_classOf_opens {hd : PesHeader} (hoff : offsetOf (classPacket 1 c h body) (classTsh 1 c h) = 4 + n)
    (hparse : parsePesHeader (body.data.drop n) = some hd) (hcap : 184 - n ≤ s.cfg.bufCap) :
    exec (classOf 1 c h body) s = .next { s with
      tsh := classTsh 1 c h, af := if c = 2 ∨ c = 3 then some (bodyAf body) else none, result := .assemblingStarted
      asm := { s.asm with
        lastCC := some h.continuityCounter, started := true, header := hd
        buffer := cellsFrom 0 (body.data.drop n), bytesAccumulated := 184 - n } } := by
  have hcount : 188 - (4 + n) = 184 - n := Nat.sub_add_eq 188 4 n
  have habsorb := absorb_opens (tsh := classTsh 1 c h) (p := classPacket 1 c h body) (cap := s.cfg.bufCap) hexp rfl
    (by rwa [hoff, drop_add_classPacket]) (by rwa [hoff, hcount])
  rw [hoff, drop_add_classPacket, hcount] at habsorb
  exact exec_classOf_of_absorb habsorb

theorem exec_classOf_goes_idle (hoff : 183 ≤ offsetOf (classPacket 1 c h body) (classTsh 1 c h)) :
    exec (classOf 1 c h body) s = .next { s with
      tsh := classTsh 1 c h, af := if c = 2 ∨ c = 3 then some (bodyAf body) else none
      result := if s.asm.started = true then .assemblingFinished else .unexpectedPid
      asm := { s.asm with
        lastCC := some h.continuityCounter, started := false, buffer := [], bytesAccumulated := 0 } } :=
  exec_classOf_of_absorb (absorb_goes_idle hexp rfl hoff)

end rows

/-! ### The eight classes -/

/-- Settles O25: an AFC of 0 or 2 carries no payload. -/
theorem continuationClassesWithoutPayload : Obligations.ContinuationClassesWithoutPayload := by
  intro h body s hexp
  exact ⟨exec_classOf_records_counter (c := 0) hexp (.inr (by decide)),
    exec_classOf_records_counter (c := 2) hexp (.inr (by decide))⟩

/-- Settles O26: the payload is the whole body. -/
theorem continuationClassWithPlainPayload : Obligations.ContinuationClassWithPlainPayload := by
  intro h body s hexp tsh
  constructor
  · intro hs
    exact exec_classOf_records_counter (c := 1) hexp (.inl hs)
  · intro hs hfit
    obtain ⟨buf, done, hdone, hread, hexec⟩ :=
      exec_classOf_appends (c := 1) (n := 0) hexp (offsetOf_classPacket 0 1 h body) (by decide) hs hfit
    exact ⟨buf, done, hdone, by simpa using hread, hexec⟩

/-- Settles O27: the payload begins behind the adaptation field's length byte and the bytes it counts. -/
theorem continuationClassBehindAdaptation : Obligations.ContinuationClassBehindAdaptation := by
  intro h body s hexp tsh af count
  have hcount : 184 - (1 + (body.byte 0).toNat) = count := Nat.sub_add_eq 184 1 _
  constructor
  · intro hs
    exact exec_classOf_records_counter (c := 3) hexp (.inl hs)
  · intro hs hfit
    have happends := exec_classOf_appends (c := 3) hexp (offsetOf_classPacket 0 3 h body) (by decide) hs
      (by rwa [hcount])
    rwa [hcount] at happends

/-- The header of a body is its first six bytes (R97). -/
theorem parsePesHeader_body (body : Block 184) : parsePesHeader body.data =
    some ⟨body.byte 0 ++ body.byte 1 ++ body.byte 2, body.byte 3, body.byte 4 ++ body.byte 5⟩ := by
  obtain ⟨data, size⟩ := body
  match data, size with
  | b0 :: b1 :: b2 :: b3 :: b4 :: b5 :: tail, size => rfl

/-- Settles O28: without an adaptation field the header is the body's first six bytes. -/
theorem plainStartClassesOpenAssembly : Obligations.PlainStartClassesOpenAssembly := by
  intro h body s hexp hcap
  refine ⟨⟨body.byte 0 ++ body.byte 1 ++ body.byte 2, body.byte 3, body.byte 4 ++ body.byte 5⟩, cellsFrom 0 body.data,
    toNat_bytes3 _ _ _, rfl, toNat_bytes2 _ _, read_cellsFrom_zero body.data, ?_⟩
  rintro _ rfl
  exact ⟨exec_classOf_opens (c := 0) (n := 0) hexp (offsetOf_classPacket 1 0 h body) (parsePesHeader_body body) hcap,
    exec_classOf_opens (c := 1) (n := 0) hexp (offsetOf_classPacket 1 1 h body) (parsePesHeader_body body) hcap⟩

/-- Settles O29: behind the adaptation field six bytes are left exactly when `AF.length` is at most 177. -/
theorem adaptedStartClasses : Obligations.AdaptedStartClasses := by
  intro h body s hexp af len tsh
  have hoff2 : offsetOf (classPacket 1 2 h body) (classTsh 1 2 h) = 4 + (1 + len) := offsetOf_classPacket ..
  have hoff3 : offsetOf (classPacket 1 3 h body) (classTsh 1 3 h) = 4 + (1 + len) := offsetOf_classPacket ..
  constructor
  · intro hlen hcap
    have hcount : 184 - (1 + len) = 183 - len := Nat.sub_add_eq 184 1 len
    obtain ⟨hd, hparse⟩ := parsePesHeader_isSome (bs := body.data.drop (1 + len))
      (by rw [List.length_drop, body.size]; omega)
    refine ⟨hd, _, hparse, fun x => by rw [read_cellsFrom_zero, List.getElem?_drop], ?_⟩
    rintro _ rfl
    rw [← hcount] at hcap ⊢
    exact ⟨exec_classOf_opens hexp hoff2 hparse hcap, exec_classOf_opens hexp hoff3 hparse hcap⟩
  · rintro hlen _ _ rfl rfl
    have hidle : 183 ≤ 4 + (1 + len) := by omega
    exact ⟨exec_classOf_goes_idle (c := 2) hexp (hidle.trans_eq hoff2.symm),
      exec_classOf_goes_idle (c := 3) hexp (hidle.trans_eq hoff3.symm)⟩

end Sys2Proof.Machine
end

section
/-! PROOF. Idle and Assembling: which results change the state, and what Idle keeps (spec 43_pes_assembler.md R188, R200, R202). -/

namespace Sys2Proof.Machine

/-! ### The state after PES.ABSORB, by its result -/

section absorb

variable {cap : Nat} {p : Block 188} {tsh : Tsh} {adapt : Option Af} {a a' : Asm} {r : Result}

/-- The columns `state after` and `outcome` of R205: of the results, only UnexpectedPid leaves the state as it was. -/
theorem absorb_started_cases (h : absorb cap p tsh adapt a = .ok (a', r)) :
    (a'.started = true ∧ r = .assemblingStarted) ∨
    (a'.started = true ∧ a.started = true ∧ r = .assemblingContinue) ∨
    (a'.started = false ∧ (r = .streamPacketLost ∨ r = .assemblingFinished)) ∨
    (a'.started = a.started ∧ r = .unexpectedPid) := by
  rcases absorb_ok_cases h with ⟨_, rfl, rfl⟩ | ⟨_, rfl, rfl⟩ | ⟨_, hrow⟩
  · exact .inr (.inr (.inr ⟨rfl, rfl⟩))
  · exact .inr (.inr (.inl ⟨rfl, .inl rfl⟩))
  · rcases hrow with ⟨_, _, _, _, rfl, rfl⟩ | ⟨_, _, rfl, rfl⟩ | ⟨_, _, rfl, rfl⟩ | ⟨_, _, _, _, _, rfl, rfl⟩ |
      ⟨_, _, hs, _, _, rfl, rfl⟩
    · exact .inl ⟨rfl, rfl⟩
    · cases hs : a.started with
      | true => exact .inr (.inr (.inl ⟨rfl, .inr rfl⟩))
      | false => exact .inr (.inr (.inr ⟨rfl, rfl⟩))
    · exact .inr (.inr (.inr ⟨rfl, rfl⟩))
    · exact .inr (.inr (.inl ⟨rfl, .inr rfl⟩))
    · exact .inr (.inl ⟨hs, hs, rfl⟩)

/-- A continuation that finishes has reached a declared total (R200). -/
theorem bounded_of_absorb_finishes (h : absorb cap p tsh adapt a = .ok (a', .assemblingFinished))
    (hu : tsh.payloadUnitStart = 0) : a.header.packetLength ≠ 0 := by
  have hu1 : tsh.payloadUnitStart ≠ 1#1 := by rw [hu]; decide
  rcases absorb_ok_cases h with ⟨_, _, hr⟩ | ⟨_, _, hr⟩ | ⟨_, hrow⟩
  · cases hr
  · cases hr
  · rcases hrow with ⟨hstart, _⟩ | ⟨hstart, _⟩ | ⟨_, _, _, hr⟩ | ⟨_, _, _, _, hdone, _⟩ | ⟨_, _, _, _, _, _, hr⟩
    · exact absurd hstart hu1
    · exact absurd hstart hu1
    · cases hr
    · exact ((Asm.complete_append_iff a _).mp hdone).1
    · cases hr

/-- While Idle, only a start of the target's PID touches BUF (R202). -/
theorem absorb_keeps_buffer_of_idle (h : absorb cap p tsh adapt a = .ok (a', r)) (hs : a.started = false)
    (hu : tsh.pid = a.targetPid → tsh.payloadUnitStart = 0) :
    a'.buffer = a.buffer ∧ a'.bytesAccumulated = a.bytesAccumulated ∧ a'.started = false := by
  rcases absorb_ok_cases h with ⟨_, rfl, _⟩ | ⟨⟨_, hs', _⟩, _⟩ | ⟨⟨hpid, _⟩, hrow⟩
  · exact ⟨rfl, rfl, hs⟩
  · simp [hs] at hs'
  · have hu1 : tsh.payloadUnitStart ≠ 1#1 := by rw [hu hpid]; decide
    rcases hrow with ⟨hstart, _⟩ | ⟨hstart, _⟩ | ⟨_, _, rfl, _⟩ | ⟨_, _, hs', _⟩ | ⟨_, _, hs', _⟩
    · exact absurd hstart hu1
    · exact absurd hstart hu1
    · exact ⟨rfl, rfl, hs⟩
    · simp [hs] at hs'
    · simp [hs] at hs'

end absorb

/-! ### The whole machine -/

section effect

variable {i : Instr} {s t : State}

/-- The two writers of ASM (R32), PES.ABSORB with its outcome in RESULT. -/
theorem ExecEffect.asm_result_cases (h : ExecEffect s i t) :
    t.asm = s.asm ∨ (∃ pid, i = .reset pid ∧ t.asm = Asm.fresh pid) ∨
      ∃ p tsh adapt, absorb s.cfg.bufCap p tsh adapt s.asm = .ok (t.asm, t.result) := by
  cases h with
  | absorbed _ _ habsorb => exact .inr (.inr ⟨_, _, _, habsorb⟩)
  | absorbedAlone habsorb => exact .inr (.inr ⟨_, _, _, habsorb⟩)
  | reset pid => exact .inr (.inl ⟨pid, rfl, rfl⟩)
  | _ => exact .inl rfl

/-- What an operation that goes on does to the state of R37, with its result. -/
theorem ExecEffect.started_cases (h : ExecEffect s i t) :
    (t.asm.started = true ∧ t.result = .assemblingStarted) ∨
    (t.asm.started = false ∧ (t.result = .streamPacketLost ∨ t.result = .assemblingFinished ∨ ∃ pid, i = .reset pid)) ∨
    t.asm.started = s.asm.started := by
  rcases h.asm_result_cases with hasm | ⟨pid, hi, hasm⟩ | ⟨p, tsh, adapt, habsorb⟩
  · exact .inr (.inr (by rw [hasm]))
  · exact .inr (.inl ⟨by rw [hasm, Asm.fresh_started], .inr (.inr ⟨pid, hi⟩)⟩)
  · rcases absorb_started_cases habsorb with hopen | ⟨hs', hs, _⟩ | ⟨hs', hr⟩ | ⟨hs', _⟩
    · exact .inl hopen
    · exact .inr (.inr (hs'.trans hs.symm))
    · exact .inr (.inl ⟨hs', hr.imp_right .inl⟩)
    · exact .inr (.inr hs')

/-- What PKT does to the assembler: nothing on a bad sync byte, PES.ABSORB on a good one (R240, R242). -/
theorem exec_pkt_next_cases {p : Block 188} (h : exec (.pkt p) s = .next t) :
    (parseTsh p = none ∧ t.asm = s.asm ∧ t.result = .syncError) ∨
    ∃ tsh, parseTsh p = some tsh ∧ absorb s.cfg.bufCap p tsh (decodedAf p tsh) s.asm = .ok (t.asm, t.result) := by
  cases hp : parseTsh p with
  | none =>
    rw [exec_pkt_of_invalid hp] at h
    cases h
    exact .inl ⟨rfl, rfl, rfl⟩
  | some tsh =>
    rw [exec_pkt_of_parsed hp, commit_eq_next_iff] at h
    obtain ⟨a, r, habsorb, rfl⟩ := h
    exact .inr ⟨tsh, rfl, habsorb⟩

/-- The state after PKT, by its result. -/
theorem exec_pkt_started_cases {p : Block 188} (h : exec (.pkt p) s = .next t) :
    (t.asm.started = true ∧ (t.result = .assemblingStarted ∨ t.result = .assemblingContinue)) ∨
    (t.asm.started = false ∧ (t.result = .streamPacketLost ∨ t.result = .assemblingFinished)) ∨
    (t.result = .syncError ∨ t.result = .unexpectedPid) := by
  rcases exec_pkt_next_cases h with ⟨_, _, hr⟩ | ⟨tsh, _, habsorb⟩
  · exact .inr (.inr (.inl hr))
  · rcases absorb_started_cases habsorb with ⟨hs, hr⟩ | ⟨hs, _, hr⟩ | hidle | ⟨_, hr⟩
    · exact .inl ⟨hs, .inl hr⟩
    · exact .inl ⟨hs, .inr hr⟩
    · exact .inr (.inl hidle)
    · exact .inr (.inr (.inr hr))

end effect

/-- Settles O36: every writer of ASM is among the three cases of `ExecEffect.started_cases`. -/
theorem onlyTheseEventsChangeTheState : Obligations.OnlyTheseEventsChangeTheState := by
  intro i s t hexec
  refine ⟨fun hs ht => ?_, fun hs ht => ?_, ?_, ?_⟩
  · rcases (execEffect_of_exec hexec).started_cases with ⟨_, hr⟩ | ⟨ht', _⟩ | hsame
    · exact hr
    · simp [ht] at ht'
    · simp [hs, ht] at hsame
  · rcases (execEffect_of_exec hexec).started_cases with ⟨ht', _⟩ | ⟨_, hcause⟩ | hsame
    · simp [ht] at ht'
    · exact hcause
    · simp [hs, ht] at hsame
  · rintro p rfl hr
    rcases exec_pkt_started_cases hexec with ⟨_, hr' | hr'⟩ | ⟨hidle, _⟩ | hr' | hr'
    case inr.inl => exact hidle
    all_goals simp [hr'] at hr
  · rintro p rfl hr
    rcases exec_pkt_started_cases hexec with ⟨hs, _⟩ | ⟨_, hr' | hr'⟩ | hr' | hr'
    case inl => exact hs
    all_goals simp [hr'] at hr

/-- Settles O49: a continuation finishes only by a declared total, which is never that of a length of zero. -/
theorem unboundedPacketsNeverFinishByLength : Obligations.UnboundedPacketsNeverFinishByLength := by
  intro p tsh s t hp hu hzero hexec hr
  rcases exec_pkt_next_cases hexec with ⟨hnone, _, _⟩ | ⟨tsh', hp', habsorb⟩
  · simp [hp] at hnone
  · obtain rfl : tsh = tsh' := Option.some.inj (hp.symm.trans hp')
    rw [hr] at habsorb
    exact bounded_of_absorb_finishes habsorb hu hzero

/-- Settles O50: a bad packet leaves the assembler, and any other is no start of the target's PID. -/
theorem finishedBufferSurvivesUntilNextStart : Obligations.FinishedBufferSurvivesUntilNextStart := by
  intro p s t hs hu hexec
  rcases exec_pkt_next_cases hexec with ⟨_, hasm, _⟩ | ⟨tsh, hp, habsorb⟩
  · rw [hasm]
    exact ⟨rfl, rfl, hs⟩
  · exact absorb_keeps_buffer_of_idle habsorb hs (hu tsh hp)

end Sys2Proof.Machine
end

section
/-! PROOF. Runs of PKT as seen by the assembler, and what a run does not see: foreign packets and the counter held while Idle (spec
00_scope.md R19; 43_pes_assembler.md R206, R218). -/

namespace Sys2Proof.Machine

/-! ### A packet and a run, on the assembler alone -/

/-- What PKT does to the assembler: nothing on a bad sync byte, PES.ABSORB on a good one (R240, R242). -/
def packetEffect (cap : Nat) (p : Block 188) (a : Asm) : Except Fault (Asm × Result) :=
  match parseTsh p with
  | none => .ok (a, .syncError)
  | some tsh => absorb cap p tsh (decodedAf p tsh) a

/-- `packetEffect` folded over the packets. -/
def asmRun (cap : Nat) : List (Block 188) → Asm → Option (Asm × List Result)
  | [], a => some (a, [])
  | p :: ps, a =>
    match packetEffect cap p a with
    | .ok (a', r) => (asmRun cap ps a').map fun x => (x.1, r :: x.2)
    | .error _ => none

section run

variable {cap : Nat} {p : Block 188} {tsh : Tsh} {a a' : Asm} {r : Result}

theorem packetEffect_of_invalid (h : parseTsh p = none) : packetEffect cap p a = .ok (a, .syncError) := by
  rw [packetEffect, h]

theorem packetEffect_of_parsed (h : parseTsh p = some tsh) :
    packetEffect cap p a = absorb cap p tsh (decodedAf p tsh) a := by
  rw [packetEffect, h]

theorem packetEffect_targetPid (h : packetEffect cap p a = .ok (a', r)) : a'.targetPid = a.targetPid := by
  cases hp : parseTsh p with
  | none =>
    rw [packetEffect_of_invalid hp] at h
    cases h
    rfl
  | some tsh =>
    rw [packetEffect_of_parsed hp] at h
    exact absorb_targetPid h

theorem asmRun_cons_of_ok (h : packetEffect cap p a = .ok (a', r)) (ps : List (Block 188)) :
    asmRun cap (p :: ps) a = (asmRun cap ps a').map fun x => (x.1, r :: x.2) := by
  rw [asmRun, h]

theorem asmRun_cons_of_error {f : Fault} (h : packetEffect cap p a = .error f) (ps : List (Block 188)) :
    asmRun cap (p :: ps) a = none := by
  rw [asmRun, h]

/-- PKT is `packetEffect` on the assembler, with the decoders' registers beside it. -/
theorem exec_pkt_eq_commit (p : Block 188) (s : State) :
    ∃ tsh af, exec (.pkt p) s = commit (s.present tsh af) (packetEffect s.cfg.bufCap p s.asm) := by
  cases hp : parseTsh p with
  | none => exact ⟨Tsh.zero, none, by rw [exec_pkt_of_invalid hp, packetEffect_of_invalid hp, commit_ok]; rfl⟩
  | some tsh => exact ⟨tsh, _, by rw [exec_pkt_of_parsed hp, packetEffect_of_parsed hp]⟩

theorem packetRun_cons_of_next {s s' : State} (h : exec (.pkt p) s = .next s') (ps : List (Block 188)) :
    packetRun (p :: ps) s = (packetRun ps s').map fun x => (x.1, s'.result :: x.2) := by
  simp only [packetRun, h]
  cases packetRun ps s' with
  | none => rfl
  | some x => rfl

theorem packetRun_cons_of_fault {s : State} {f : Fault} (h : exec (.pkt p) s = .fault f) (ps : List (Block 188)) :
    packetRun (p :: ps) s = none := by
  rw [packetRun, h]

/-- A run's assembler and results are those of the fold over the assembler. -/
theorem packetRun_map_asm (ps : List (Block 188)) (s : State) :
    (packetRun ps s).map (fun x => (x.1.asm, x.2)) = asmRun s.cfg.bufCap ps s.asm := by
  induction ps generalizing s with
  | nil => rfl
  | cons p ps ih =>
    obtain ⟨tsh, af, hexec⟩ := exec_pkt_eq_commit p s
    cases heffect : packetEffect s.cfg.bufCap p s.asm with
    | error f =>
      rw [heffect, commit_error] at hexec
      rw [packetRun_cons_of_fault hexec, asmRun_cons_of_error heffect, Option.map_none]
    | ok ar =>
      obtain ⟨a, r⟩ := ar
      have hrest : _ = asmRun s.cfg.bufCap ps a := ih (((s.present tsh af).setAsm a).setResult r)
      rw [heffect, commit_ok] at hexec
      rw [packetRun_cons_of_next hexec, asmRun_cons_of_ok heffect, ← hrest, Option.map_map, Option.map_map]
      rfl

theorem asmRun_of_packetRun {ps : List (Block 188)} {s t : State} {rs : List Result}
    (h : packetRun ps s = some (t, rs)) : asmRun s.cfg.bufCap ps s.asm = some (t.asm, rs) := by
  rw [← packetRun_map_asm, h]
  rfl

theorem packetRun_of_asmRun {ps : List (Block 188)} {s : State} {rs : List Result}
    (h : asmRun s.cfg.bufCap ps s.asm = some (a, rs)) : ∃ t, packetRun ps s = some (t, rs) ∧ t.asm = a := by
  rw [← packetRun_map_asm, Option.map_eq_some_iff] at h
  obtain ⟨⟨t, rs'⟩, hrun, heq⟩ := h
  cases heq
  exact ⟨t, hrun, rfl⟩

end run

/-! ### Foreign packets -/

/-- The results of the packets that are not foreign. -/
def remainingResults (target : BitVec 13) (ps : List (Block 188)) (rs : List Result) : List Result :=
  ((ps.zip rs).filter fun y => !foreignPacket target y.1).map Prod.snd

theorem remainingResults_cons_of_foreign {target : BitVec 13} {p : Block 188} (h : foreignPacket target p = true)
    (r : Result) (ps : List (Block 188)) (rs : List Result) :
    remainingResults target (p :: ps) (r :: rs) = remainingResults target ps rs := by
  simp [remainingResults, h]

theorem remainingResults_cons_of_not_foreign {target : BitVec 13} {p : Block 188} (h : foreignPacket target p = false)
    (r : Result) (ps : List (Block 188)) (rs : List Result) :
    remainingResults target (p :: ps) (r :: rs) = r :: remainingResults target ps rs := by
  simp [remainingResults, h]

theorem foreignPacket_iff (target : BitVec 13) (p : Block 188) :
    foreignPacket target p = true ↔ ∃ tsh, parseTsh p = some tsh ∧ tsh.pid ≠ target := by
  unfold foreignPacket
  cases parseTsh p with
  | none => simp
  | some tsh => simp

theorem packetEffect_of_foreign {cap : Nat} {p : Block 188} {a : Asm} (h : foreignPacket a.targetPid p = true) :
    packetEffect cap p a = .ok (a, .unexpectedPid) := by
  obtain ⟨tsh, hp, hforeign⟩ := (foreignPacket_iff _ p).mp h
  rw [packetEffect_of_parsed hp, absorb_of_foreign hforeign]

theorem asmRun_filter_foreign (cap : Nat) (target : BitVec 13) (ps : List (Block 188)) (a : Asm)
    (htarget : a.targetPid = target) :
    asmRun cap (ps.filter fun p => !foreignPacket target p) a
      = (asmRun cap ps a).map fun x => (x.1, remainingResults target ps x.2) := by
  induction ps generalizing a with
  | nil => rfl
  | cons p ps ih =>
    cases hforeign : foreignPacket target p with
    | true =>
      have heffect : packetEffect cap p a = .ok (a, .unexpectedPid) := packetEffect_of_foreign (by rw [htarget, hforeign])
      rw [List.filter_cons_of_neg (by simp [hforeign]), ih a htarget, asmRun_cons_of_ok heffect, Option.map_map]
      simp only [Function.comp_def, remainingResults_cons_of_foreign hforeign]
    | false =>
      rw [List.filter_cons_of_pos (by simp [hforeign])]
      cases heffect : packetEffect cap p a with
      | error f => rw [asmRun_cons_of_error heffect, asmRun_cons_of_error heffect]; rfl
      | ok ar =>
        have htarget' := (packetEffect_targetPid heffect).trans htarget
        rw [asmRun_cons_of_ok heffect, asmRun_cons_of_ok heffect, ih ar.1 htarget', Option.map_map, Option.map_map]
        simp only [Function.comp_def, remainingResults_cons_of_not_foreign hforeign]

/-- Settles O54: a foreign packet is `packetEffect`'s identity with UnexpectedPid, so the runs with and without it are one fold of
the assembler. -/
theorem foreignPacketsCanBeDeleted : Obligations.ForeignPacketsCanBeDeleted := by
  constructor
  · intro p s h
    obtain ⟨tsh, hp, hforeign⟩ := (foreignPacket_iff _ p).mp h
    exact ⟨_, exec_pkt_of_absorb hp (absorb_of_foreign hforeign _), rfl, rfl⟩
  · intro ps s
    rw [packetRun_map_asm, asmRun_filter_foreign _ _ ps s.asm rfl, ← packetRun_map_asm, Option.map_map]
    rfl

/-! ### The counter held while Idle -/

/-- The assembler with another counter. -/
def Asm.withCounter (a : Asm) (cc : Option (BitVec 4)) : Asm := { a with lastCC := cc }

/-- A run's assembler but for `lastCC`, and its results. -/
def forgetCounter (x : Asm × List Result) : Asm × List Result := (x.1.withCounter none, x.2)

/-- While Idle a packet of the target's PID overwrites the counter unseen, and any other leaves it with the rest (R189, R190). -/
theorem packetEffect_withCounter {a : Asm} (hs : a.started = false) (cap : Nat) (p : Block 188)
    (cc : Option (BitVec 4)) :
    packetEffect cap p (a.withCounter cc) = packetEffect cap p a ∨
    ∃ r, packetEffect cap p a = .ok (a, r) ∧ packetEffect cap p (a.withCounter cc) = .ok (a.withCounter cc, r) := by
  cases hp : parseTsh p with
  | none => exact .inr ⟨_, packetEffect_of_invalid hp, packetEffect_of_invalid hp⟩
  | some tsh =>
    rw [packetEffect_of_parsed hp, packetEffect_of_parsed hp]
    by_cases hpid : tsh.pid = a.targetPid
    · have hexp : a.Expects tsh.pid tsh.continuityCounter := ⟨hpid, by simp [hs]⟩
      have hexp' : (a.withCounter cc).Expects tsh.pid tsh.continuityCounter := ⟨hpid, by simp [Asm.withCounter, hs]⟩
      refine .inl ?_
      rw [absorb, absorb, admitted_of_expects hexp, admitted_of_expects hexp']
      rfl
    · exact .inr ⟨_, absorb_of_foreign hpid _, absorb_of_foreign (a := a.withCounter cc) hpid _⟩

theorem asmRun_withCounter {a : Asm} (hs : a.started = false) (cap : Nat) (cc : Option (BitVec 4))
    (ps : List (Block 188)) :
    (asmRun cap ps (a.withCounter cc)).map forgetCounter = (asmRun cap ps a).map forgetCounter := by
  induction ps with
  | nil => rfl
  | cons p ps ih =>
    rcases packetEffect_withCounter hs cap p cc with hsame | ⟨r, heffect, heffect'⟩
    · rw [asmRun, asmRun, hsame]
    · rw [asmRun_cons_of_ok heffect, asmRun_cons_of_ok heffect', Option.map_map, Option.map_map]
      have hcons := congrArg (Option.map fun x : Asm × List Result => (x.1, r :: x.2)) ih
      rwa [Option.map_map, Option.map_map] at hcons

theorem packetRun_map_forgetCounter (ps : List (Block 188)) (s : State) :
    (packetRun ps s).map (fun x => (({ x.1.asm with lastCC := none } : Asm), x.2))
      = (asmRun s.cfg.bufCap ps s.asm).map forgetCounter := by
  rw [← packetRun_map_asm, Option.map_map]
  rfl

/-- Settles O53, by induction on the packets until one of the target's PID overwrites the counter. -/
theorem idleCounterIsUnobservable : Obligations.IdleCounterIsUnobservable := by
  intro s cc ps hs
  rw [packetRun_map_forgetCounter, packetRun_map_forgetCounter]
  exact asmRun_withCounter hs s.cfg.bufCap cc ps

end Sys2Proof.Machine
end

section
/-! PROOF. Packets in sequence: no loss, and a split PES packet is put together again (spec 43_pes_assembler.md R190, R209;
95_test_vectors.md S3). -/

namespace Sys2Proof.Machine

/-! ### The counter in sequence -/

/-- While Assembling, the next counter expected is `c` modulo 16 (R190). -/
def Asm.Awaits (a : Asm) (c : Nat) : Prop :=
  a.started = true → ∃ last, a.lastCC = some last ∧ c % 16 = (last.toNat + 1) % 16

section sequence

variable {cap c : Nat} {p : Block 188} {tsh : Tsh} {adapt : Option Af} {a a' : Asm} {r : Result}

theorem Asm.Awaits.expects (h : a.Awaits c) (hpid : tsh.pid = a.targetPid) (hcc : tsh.continuityCounter.toNat = c % 16) :
    a.Expects tsh.pid tsh.continuityCounter := by
  refine ⟨hpid, fun hs => ?_⟩
  obtain ⟨last, hlast, hc⟩ := h hs
  exact ⟨last, hlast, hcc.trans hc⟩

theorem Asm.awaits_succ {cc : BitVec 4} (hlast : a.lastCC = some cc) (hcc : cc.toNat = c % 16) : a.Awaits (c + 1) :=
  fun _ => ⟨cc, hlast, by omega⟩

/-- A packet that passes S2 does not miss it (R190). -/
theorem Asm.Expects.not_misses {pid : BitVec 13} {cc : BitVec 4} (h : a.Expects pid cc) : ¬ a.Misses pid cc := by
  rintro ⟨_, hs, last, hlast, hne⟩
  obtain ⟨last', hlast', heq⟩ := h.2 hs
  obtain rfl : last = last' := Option.some.inj (hlast.symm.trans hlast')
  exact hne heq

/-- An accepted packet's counter is recorded, and it is not lost (R190, R197). -/
theorem absorb_of_expects_records (hexp : a.Expects tsh.pid tsh.continuityCounter)
    (h : absorb cap p tsh adapt a = .ok (a', r)) :
    a'.lastCC = some tsh.continuityCounter ∧ r ≠ .streamPacketLost := by
  rcases absorb_ok_cases h with ⟨hforeign, _⟩ | ⟨hmiss, _⟩ | ⟨_, hrow⟩
  · exact absurd hexp.1 hforeign
  · exact absurd hmiss hexp.not_misses
  · rcases hrow with ⟨_, _, _, _, rfl, rfl⟩ | ⟨_, _, rfl, rfl⟩ | ⟨_, _, rfl, rfl⟩ | ⟨_, _, _, _, _, rfl, rfl⟩ |
      ⟨_, _, _, _, _, rfl, rfl⟩
    · exact ⟨rfl, nofun⟩
    · exact ⟨rfl, by cases a.started <;> decide⟩
    · exact ⟨rfl, nofun⟩
    · exact ⟨rfl, nofun⟩
    · exact ⟨rfl, nofun⟩

end sequence

theorem asmRun_inSequence_never_lost (cap : Nat) (ps : List (Block 188)) (c : Nat) (a a' : Asm) (rs : List Result)
    (hseq : InSequence a.targetPid c ps) (hawaits : a.Awaits c) (hrun : asmRun cap ps a = some (a', rs)) :
    Result.streamPacketLost ∉ rs := by
  induction ps generalizing c a rs with
  | nil =>
    cases hrun
    exact List.not_mem_nil
  | cons p ps ih =>
    obtain ⟨⟨tsh, hp, hpid, hcc⟩, hseq⟩ := hseq
    cases heffect : packetEffect cap p a with
    | error f =>
      rw [asmRun_cons_of_error heffect] at hrun
      cases hrun
    | ok ar =>
      obtain ⟨a1, r⟩ := ar
      rw [asmRun_cons_of_ok heffect, Option.map_eq_some_iff] at hrun
      obtain ⟨⟨a2, rs'⟩, hrun, heq⟩ := hrun
      cases heq
      have htarget := packetEffect_targetPid heffect
      rw [packetEffect_of_parsed hp] at heffect
      obtain ⟨hlast, hr⟩ := absorb_of_expects_records (hawaits.expects hpid hcc) heffect
      have hrest := ih (c + 1) a1 rs' (htarget ▸ hseq) (Asm.awaits_succ hlast hcc) hrun
      exact List.not_mem_cons_of_ne_of_not_mem hr.symm hrest

/-- Settles O55, by induction on the packets: each is the one the counter recorded before it awaits. -/
theorem consecutiveCountersAreNeverLost : Obligations.ConsecutiveCountersAreNeverLost := by
  intro ps c s t rs hseq hawaits hrun
  exact asmRun_inSequence_never_lost s.cfg.bufCap ps c s.asm t.asm rs hseq hawaits (asmRun_of_packetRun hrun)

/-! ### The bytes held -/

/-- BUF holds these bytes from address 0, and its length counts them (R34, R35). -/
def Asm.Holds (a : Asm) (bytes : List Byte) : Prop :=
  a.bytesAccumulated = bytes.length ∧ ∀ x, x < bytes.length → Memory.read a.buffer x = bytes[x]?

theorem Asm.Holds.readBytes {a : Asm} {bytes : List Byte} (h : a.Holds bytes) :
    Memory.readBytes a.buffer 0 bytes.length = some bytes :=
  (Memory.readBytes_eq_some_iff ..).mpr ⟨rfl, fun x hx => by rw [Nat.zero_add, h.2 x hx]⟩

theorem Asm.holds_startedWith (a : Asm) (hd : PesHeader) (bs : List Byte) : (a.startedWith hd bs).Holds bs :=
  ⟨Asm.startedWith_bytesAccumulated .., fun x _ => by rw [Asm.startedWith_buffer, read_cellsFrom_zero]⟩

theorem Asm.Holds.append {a : Asm} {held : List Byte} (h : a.Holds held) (bs : List Byte) :
    (a.append bs).Holds (held ++ bs) := by
  obtain ⟨hlen, hread⟩ := h
  refine ⟨by rw [Asm.append_bytesAccumulated, hlen, List.length_append], fun x hx => ?_⟩
  rw [List.length_append] at hx
  rw [Asm.append_buffer, Memory.read_writeBytes, hlen]
  by_cases hold : x < held.length
  · rw [if_neg (by omega), hread x hold, List.getElem?_append_left hold]
  · rw [if_pos ⟨by omega, hx⟩, List.getElem?_append_right (by omega)]

/-! ### The packets of a split PES packet -/

/-- Assembling a PES packet of declared length `len`, not zero, of which BUF holds `held`, with the counter `c` next. -/
structure Asm.Midway (a : Asm) (len : BitVec 16) (c : Nat) (held : List Byte) : Prop where
  started : a.started = true
  awaits : a.Awaits c
  length : a.header.packetLength = len
  bounded : len ≠ 0
  holds : a.Holds held

/-- The packet has a valid sync byte, the PID `target`, the counter `c` modulo 16, and is a continuation with payload (R198). -/
def Continues (target : BitVec 13) (c : Nat) (p : Block 188) : Prop :=
  ∃ tsh, parseTsh p = some tsh ∧ tsh.pid = target ∧ tsh.continuityCounter.toNat = c % 16 ∧
    tsh.payloadUnitStart = 0 ∧ CarriesPayload tsh

theorem payloadOf_of_parsed {p : Block 188} {tsh : Tsh} (h : parseTsh p = some tsh) :
    payloadOf p = packetPayload p (offsetOf p tsh) := by
  rw [payloadOf, h, packetPayload]

section split

variable {cap c : Nat} {p : Block 188} {a : Asm} {len : BitVec 16} {held : List Byte}

theorem Asm.Midway.reaches_iff (h : a.Midway len c held) (k : Nat) : a.Reaches k ↔ len.toNat + 6 ≤ held.length + k := by
  rw [Asm.Reaches, h.length, h.holds.1]
  exact and_iff_right h.bounded

/-- The first packet (R195). -/
theorem packetEffect_begins {tsh : Tsh} {hd : PesHeader} (hp : parseTsh p = some tsh) (hu : tsh.payloadUnitStart = 1)
    (hexp : a.Expects tsh.pid tsh.continuityCounter) (hcc : tsh.continuityCounter.toNat = c % 16)
    (hparse : parsePesHeader (payloadOf p) = some hd) (hbounded : hd.packetLength ≠ 0)
    (hfit : (payloadOf p).length ≤ cap) :
    ∃ a', packetEffect cap p a = .ok (a', .assemblingStarted) ∧
      a'.Midway hd.packetLength (c + 1) (payloadOf p) ∧ a'.targetPid = a.targetPid := by
  refine ⟨(a.recordCounter tsh.continuityCounter).startedWith hd (payloadOf p), ?_, ⟨rfl, Asm.awaits_succ rfl hcc, rfl,
    hbounded, Asm.holds_startedWith ..⟩, rfl⟩
  rw [packetEffect_of_parsed hp, absorb_of_start hexp hu, ← payloadOf_of_parsed hp]
  exact startPes_of_parsed hparse hfit

/-- A later packet, before its completion check is decided (R199, R200). -/
theorem packetEffect_continues (h : a.Midway len c held) (hp : Continues a.targetPid c p)
    (hfit : held.length + (payloadOf p).length ≤ cap) :
    ∃ cc : BitVec 4, cc.toNat = c % 16 ∧
      packetEffect cap p a = .ok ((a.recordCounter cc).continuedWith (payloadOf p),
        continuationResult (a.append (payloadOf p)).complete) := by
  obtain ⟨tsh, hparse, hpid, hcc, hu, hpay⟩ := hp
  have hpayload := payloadOf_of_parsed hparse
  refine ⟨tsh.continuityCounter, hcc, ?_⟩
  rw [packetEffect_of_parsed hparse, hpayload]
  refine absorb_of_append (h.awaits.expects hpid hcc) hu h.started hpay ?_
  rwa [h.holds.1, ← length_packetPayload, ← hpayload]

/-- A packet that does not reach the total (R201). -/
theorem packetEffect_goes_on (h : a.Midway len c held) (hp : Continues a.targetPid c p)
    (hfit : held.length + (payloadOf p).length ≤ cap) (hshort : held.length + (payloadOf p).length < len.toNat + 6) :
    ∃ a', packetEffect cap p a = .ok (a', .assemblingContinue) ∧
      a'.Midway len (c + 1) (held ++ payloadOf p) ∧ a'.targetPid = a.targetPid := by
  obtain ⟨cc, hcc, heffect⟩ := packetEffect_continues h hp hfit
  have hmore : (a.append (payloadOf p)).complete = false := by
    rw [← Bool.not_eq_true, Asm.complete_append_iff, h.reaches_iff]
    omega
  have hstarted : ((a.recordCounter cc).continuedWith (payloadOf p)).started = true := congrArg not hmore
  rw [hmore] at heffect
  exact ⟨_, heffect, ⟨hstarted, Asm.awaits_succ rfl hcc, h.length, h.bounded, h.holds.append _⟩, rfl⟩

/-- A packet that reaches the total (R200). -/
theorem packetEffect_finishes (h : a.Midway len c held) (hp : Continues a.targetPid c p)
    (hfit : held.length + (payloadOf p).length ≤ cap) (hreach : len.toNat + 6 ≤ held.length + (payloadOf p).length) :
    ∃ a', packetEffect cap p a = .ok (a', .assemblingFinished) ∧ a'.started = false ∧
      a'.Holds (held ++ payloadOf p) := by
  obtain ⟨cc, _, heffect⟩ := packetEffect_continues h hp hfit
  have hdone : (a.append (payloadOf p)).complete = true := (Asm.complete_append_iff ..).mpr ((h.reaches_iff _).mpr hreach)
  have hidle : ((a.recordCounter cc).continuedWith (payloadOf p)).started = false := congrArg not hdone
  rw [hdone] at heffect
  exact ⟨_, heffect, hidle, h.holds.append _⟩

end split

/-- The packets after the first: all but the last go on, and the last one finishes. -/
theorem asmRun_continuations {cap : Nat} {len : BitVec 16} (ps : List (Block 188)) (c : Nat) (a : Asm) (held : List Byte)
    (h : a.Midway len c held) (hseq : InSequence a.targetPid c ps)
    (hcont : ∀ p ∈ ps, ∀ tsh, parseTsh p = some tsh → tsh.payloadUnitStart = 0 ∧ CarriesPayload tsh) (hne : ps ≠ [])
    (htotal : held.length + (ps.flatMap payloadOf).length = len.toNat + 6)
    (hshort : held.length + (ps.dropLast.flatMap payloadOf).length < len.toNat + 6) (hcap : len.toNat + 6 ≤ cap) :
    ∃ a', asmRun cap ps a
        = some (a', List.replicate (ps.length - 1) .assemblingContinue ++ [.assemblingFinished]) ∧
      a'.started = false ∧ a'.Holds (held ++ ps.flatMap payloadOf) := by
  induction ps generalizing c a held with
  | nil => exact absurd rfl hne
  | cons p ps ih =>
    obtain ⟨⟨tsh, hp, hpid, hcc⟩, hseq⟩ := hseq
    have hcontinues : Continues a.targetPid c p := ⟨tsh, hp, hpid, hcc, hcont p List.mem_cons_self tsh hp⟩
    rw [List.flatMap_cons] at htotal ⊢
    rw [List.length_append] at htotal
    cases ps with
    | nil =>
      rw [List.flatMap_nil, List.length_nil] at htotal
      obtain ⟨a', heffect, hidle, hholds⟩ := packetEffect_finishes (cap := cap) h hcontinues (by omega) (by omega)
      exact ⟨a', asmRun_cons_of_ok heffect [], hidle, by rwa [List.flatMap_nil, List.append_nil]⟩
    | cons q ps =>
      rw [List.dropLast_cons_cons, List.flatMap_cons, List.length_append] at hshort
      obtain ⟨a1, heffect, hmid, htarget⟩ := packetEffect_goes_on (cap := cap) h hcontinues (by omega) (by omega)
      obtain ⟨a', hrun, hidle, hholds⟩ := ih (c + 1) a1 (held ++ payloadOf p) hmid (htarget ▸ hseq)
        (fun p' hp' => hcont p' (List.mem_cons_of_mem p hp')) (List.cons_ne_nil q ps)
        (by rw [List.length_append]; omega) (by rw [List.length_append]; omega)
      refine ⟨a', ?_, hidle, by rwa [← List.append_assoc]⟩
      rw [asmRun_cons_of_ok heffect, hrun]
      rfl

/-- Settles O56: the first packet opens the assembly, and the others carry it to the declared total. -/
theorem splitPesPacketIsReassembled : Obligations.SplitPesPacketIsReassembled := by
  intro first rest tsh h c s hp hu hexp hseq hcont hne hparse hbounded htotal hshort hcap
  obtain ⟨⟨tsh', hp', _, hcc⟩, hseq⟩ := hseq
  obtain rfl : tsh = tsh' := Option.some.inj (hp.symm.trans hp')
  rw [List.dropLast_cons_of_ne_nil hne, List.flatMap_cons, List.length_append] at hshort
  rw [← htotal, List.flatMap_cons]
  rw [List.flatMap_cons, List.length_append] at htotal
  obtain ⟨a1, heffect, hmid, htarget⟩ := packetEffect_begins (cap := s.cfg.bufCap) hp hu hexp hcc hparse hbounded
    (by omega)
  obtain ⟨a', hrun, hidle, hholds⟩ := asmRun_continuations rest (c + 1) a1 (payloadOf first) hmid (htarget ▸ hseq) hcont
    hne htotal hshort hcap
  have hrun' := asmRun_cons_of_ok heffect rest
  rw [hrun] at hrun'
  obtain ⟨t, hpackets, rfl⟩ := packetRun_of_asmRun hrun'
  exact ⟨t, hpackets, hidle, hholds.1, hholds.readBytes⟩

end Sys2Proof.Machine
end

section
/-! PROOF. PKT as the composite of the decoders and PES.ABSORB: the same end in either form, an end in every state of a run, and no
trace in the assembler of a bad sync byte (spec 44_packet_step.md R240 to R245). -/

namespace Sys2Proof.Machine

/-! ### The operands of PES.ABSORB -/

/-- The precondition of PES.ABSORB in the words of Safety.lean (R245). -/
theorem operandsFromPacket_iff (p : Block 188) (tsh : Tsh) (af : Option Af) :
    operandsFromPacket p tsh af = true ↔ parseTsh p = some tsh ∧ (decodedAf p tsh ≠ none → af = decodedAf p tsh) := by
  rw [operandsFromPacket, ← decodedAf_eq]
  cases hasAdaptationField tsh.adaptationFieldControl with
  | false => simp
  | true => simp

theorem exec_pesAbsorb_of_not_operands {p : Block 188} {s : State} (h : operandsFromPacket p s.tsh s.af = false) :
    exec (.pesAbsorb p) s = .refused .operandsNotFromPacket := by
  simp [exec, execPesAbsorb, h]

/-- Settles O24: either half of the precondition may fail (log entry 7). -/
theorem absorbRefusesForeignOperands : Obligations.AbsorbRefusesForeignOperands := by
  intro p s hforeign
  refine exec_pesAbsorb_of_not_operands (Bool.eq_false_iff.mpr fun hops => ?_)
  obtain ⟨htsh, haf⟩ := (operandsFromPacket_iff p s.tsh s.af).mp hops
  rcases hforeign with hne | ⟨hfield, hne⟩
  · exact hne htsh
  · exact hne (haf hfield)

/-! ### The decoders, then PES.ABSORB -/

/-- What the decoders, run one after the other on a packet, leave for PES.ABSORB (R240): its operands, and the assembler as it
was. -/
structure Decoded (p : Block 188) (tsh : Tsh) (s t : State) : Prop where
  tsh_eq : t.tsh = tsh
  af_eq : decodedAf p tsh ≠ none → t.af = decodedAf p tsh
  asm_eq : t.asm = s.asm
  cfg_eq : t.cfg = s.cfg

section decoded

variable {p : Block 188} {tsh : Tsh} {s s1 s2 : State}

theorem decoded_of_exec (htsh : parseTsh p = some tsh) (h1 : exec (.tshParse p) s = .next s1)
    (h2 : decodedAf p tsh ≠ none → exec (.afParse p tsh.adaptationFieldControl) s1 = .next s2)
    (hskip : decodedAf p tsh = none → s2 = s1) : Decoded p tsh s s2 := by
  rw [exec_tshParse_of_parsed htsh] at h1
  cases h1
  rw [← decodedAf_eq] at h2 hskip
  cases hafc : hasAdaptationField tsh.adaptationFieldControl with
  | false =>
    obtain rfl := hskip (by simp [hafc])
    exact ⟨rfl, by simp [← decodedAf_eq, hafc], rfl, rfl⟩
  | true =>
    have h2 := h2 (by simp [hafc])
    rw [exec_afParse_of_field hafc] at h2
    cases h2
    exact ⟨rfl, fun _ => by simp [← decodedAf_eq, hafc], rfl, rfl⟩

/-- PES.ABSORB behind the decoders absorbs what PKT absorbs (R240). -/
theorem Decoded.exec_pesAbsorb (h : Decoded p tsh s s2) (htsh : parseTsh p = some tsh) :
    exec (.pesAbsorb p) s2 = commit s2 (absorb s.cfg.bufCap p tsh (decodedAf p tsh) s.asm) := by
  obtain ⟨rfl, haf, hasm, hcfg⟩ := h
  rw [exec_pesAbsorb_of_operands htsh haf, hasm, hcfg]

end decoded

/-- Settles O32: both forms commit one outcome of the assembler, behind the same TSH and AF. -/
theorem compositeIsDecodersThenAbsorb : Obligations.CompositeIsDecodersThenAbsorb := by
  intro p tsh s s1 s2 htsh h1 h2 hskip
  have hdecoded := decoded_of_exec htsh h1 h2 hskip
  rw [hdecoded.exec_pesAbsorb htsh, exec_pkt_of_parsed htsh]
  cases absorb s.cfg.bufCap p tsh (decodedAf p tsh) s.asm with
  | error f => exact .inr ⟨f, rfl, rfl⟩
  | ok ar => exact .inl ⟨_, _, rfl, rfl, hdecoded.tsh_eq, rfl, rfl, hdecoded.af_eq⟩

/-! ### The faults of PES.ABSORB -/

section fault

variable {cap : Nat} {bs : List Byte} {a : Asm} {f : Fault}

theorem startPes_error (h : startPes cap bs a = .error f) : f = .bufferOverflow := by
  by_cases hroom : bs.length ≤ cap
  · obtain ⟨x, hok⟩ := startPes_ok_of_room hroom a
    rw [hok] at h
    cases h
  · by_cases hlen : bs.length < 6
    · rw [startPes_of_truncated hlen] at h
      cases h
    · rw [startPes_of_overflow (by omega) (by omega)] at h
      cases h
      rfl

theorem continuePes_error (h : continuePes cap bs a = .error f) : f = .bufferOverflow := by
  by_cases hroom : a.started = true → a.bytesAccumulated + bs.length ≤ cap
  · obtain ⟨x, hok⟩ := continuePes_ok_of_room hroom
    rw [hok] at h
    cases h
  · obtain ⟨hs, hover⟩ := Classical.not_imp.mp hroom
    rw [continuePes_of_overflow hs (Nat.not_le.mp hover)] at h
    cases h
    rfl

/-- While the counter is known, BufAppend raises the only fault of PES.ABSORB (R187, R190, R283). -/
theorem absorb_error {p : Block 188} {tsh : Tsh} (hknown : a.started = true → a.lastCC ≠ none)
    (h : absorb cap p tsh (decodedAf p tsh) a = .error f) : f = .bufferOverflow := by
  rcases Asm.admission_cases hknown tsh.pid tsh.continuityCounter with hforeign | hmiss | hexp
  · rw [absorb_of_foreign hforeign] at h
    cases h
  · rw [absorb_of_misses hmiss] at h
    cases h
  · rcases BitVec.eq_zero_or_eq_one tsh.payloadUnitStart with hu | hu
    · by_cases hp : CarriesPayload tsh
      · rw [absorb_of_continuation hexp hu hp] at h
        exact continuePes_error h
      · rw [absorb_of_no_payload hexp hu hp] at h
        cases h
    · rw [absorb_of_start hexp hu] at h
      exact startPes_error h

end fault

/-- Settles O47: the invariant knows the counter while Assembling, so that an overflow is all that can stop PKT. -/
theorem pktIsTotal : Obligations.PktIsTotal := by
  intro p s hinv
  cases hp : parseTsh p with
  | none => exact .inl ⟨_, exec_pkt_of_invalid hp s⟩
  | some tsh =>
    cases habsorb : absorb s.cfg.bufCap p tsh (decodedAf p tsh) s.asm with
    | ok ar => exact .inl ⟨_, exec_pkt_of_absorb hp habsorb⟩
    | error f =>
      obtain rfl := absorb_error hinv.assembler.counterKnown habsorb
      exact .inr (exec_pkt_of_absorb_fault hp habsorb)

/-! ### A bad sync byte -/

theorem exec_pktSyncErr (sync : Byte) (rest : Block 187) (s : State) :
    exec (.pktSyncErr sync rest) s = .next ((s.present Tsh.zero none).setResult .syncError) := rfl

/-- Settles O13: PKT takes its branch for a failed TSH.PARSE, which is all that PKT.SYNCERR does. -/
theorem syncErrorLeavesAssembler : Obligations.SyncErrorLeavesAssembler := by
  intro s
  constructor
  · intro p hsync
    exact exec_pkt_of_invalid ((parseTsh_eq_none_iff p).mpr hsync) s
  · intro sync rest
    exact exec_pktSyncErr sync rest s

end Sys2Proof.Machine
end

section
/-! PROOF. RESET, and what a run of PKT after it can see of the past: BUF_CAP alone (spec 44_packet_step.md R246 to R248). -/

namespace Sys2Proof.Machine

theorem exec_reset (pid : BitVec 13) (s : State) :
    exec (.reset pid) s = .next (((s.present Tsh.zero none).setAsm (Asm.fresh pid)).setResult .noResult) := rfl

/-- Settles O33, by the registers RESET writes (that it leaves BUF_CAP and the host's side is log entry 17). -/
theorem resetSetsEveryRegister : Obligations.ResetSetsEveryRegister := by
  intro pid s
  exact exec_reset pid s

/-! ### Two machines with the same CORE -/

/-- The registers of CORE, BUF and BUF_CAP are the same; the host's side and the count of free values may differ. -/
structure State.SameCore (s t : State) : Prop where
  tsh : s.tsh = t.tsh
  af : s.af = t.af
  result : s.result = t.result
  asm : s.asm = t.asm
  cfg : s.cfg = t.cfg

theorem exec_pkt_sameCore {s t : State} (h : s.SameCore t) (p : Block 188) :
    (∃ f, exec (.pkt p) s = .fault f ∧ exec (.pkt p) t = .fault f) ∨
    ∃ s' t', exec (.pkt p) s = .next s' ∧ exec (.pkt p) t = .next t' ∧ s'.SameCore t' := by
  cases hp : parseTsh p with
  | none => exact .inr ⟨_, _, exec_pkt_of_invalid hp s, exec_pkt_of_invalid hp t, rfl, rfl, rfl, h.asm, h.cfg⟩
  | some tsh =>
    rw [exec_pkt_of_parsed hp, exec_pkt_of_parsed hp, h.asm, h.cfg]
    cases absorb t.cfg.bufCap p tsh (decodedAf p tsh) t.asm with
    | error f => exact .inl ⟨f, rfl, rfl⟩
    | ok ar => exact .inr ⟨_, _, rfl, rfl, rfl, rfl, rfl, rfl, h.cfg⟩

theorem packetRun_sameCore {s t : State} (h : s.SameCore t) (ps : List (Block 188)) :
    (packetRun ps s = none ∧ packetRun ps t = none) ∨
    ∃ s' t' rs, packetRun ps s = some (s', rs) ∧ packetRun ps t = some (t', rs) ∧ s'.SameCore t' := by
  induction ps generalizing s t with
  | nil => exact .inr ⟨s, t, [], rfl, rfl, h⟩
  | cons p ps ih =>
    rcases exec_pkt_sameCore h p with ⟨f, hs, ht⟩ | ⟨s', t', hs, ht, h'⟩
    · exact .inl ⟨packetRun_cons_of_fault hs ps, packetRun_cons_of_fault ht ps⟩
    · rw [packetRun_cons_of_next hs, packetRun_cons_of_next ht, h'.result]
      rcases ih h' with ⟨hs, ht⟩ | ⟨s'', t'', rs, hs, ht, h''⟩
      · exact .inl ⟨by rw [hs, Option.map_none], by rw [ht, Option.map_none]⟩
      · exact .inr ⟨s'', t'', t'.result :: rs, by rw [hs, Option.map_some], by rw [ht, Option.map_some], h''⟩

theorem sameCore_of_exec_reset {pid : BitVec 13} {s1 s2 t1 t2 : State} (hcfg : s1.cfg = s2.cfg)
    (h1 : exec (.reset pid) s1 = .next t1) (h2 : exec (.reset pid) s2 = .next t2) : t1.SameCore t2 := by
  rw [exec_reset] at h1 h2
  cases h1
  cases h2
  exact ⟨rfl, rfl, rfl, rfl, hcfg⟩

/-- Settles O34: RESET of two states with one BUF_CAP leaves one CORE, and a run of PKT sees no more. -/
theorem resetForgetsThePast : Obligations.ResetForgetsThePast := by
  intro pid s1 s2 t1 t2 ps hcfg h1 h2
  rcases packetRun_sameCore (sameCore_of_exec_reset hcfg h1 h2) ps with ⟨hrun1, hrun2⟩ | ⟨u1, u2, rs, hrun1, hrun2, h⟩
  · rw [hrun1, hrun2]
  · rw [hrun1, hrun2, Option.map_some, Option.map_some, h.tsh, h.af, h.result, h.asm]

end Sys2Proof.Machine
end

section
/-! PROOF. The host's stream and its short blocks, and the read port of BUF (spec 44_packet_step.md R250, R251, R253). -/

namespace Sys2Proof.Machine

/-! ### The stream -/

theorem ExecEffect.requests_eq {i : Instr} {s t : State} (h : ExecEffect s i t) : t.requests = s.requests := by
  cases h <;> rfl

theorem ExecEffect.stream_eq {i : Instr} {s t : State} (h : ExecEffect s i t) : t.stream = s.stream := by
  cases h <;> rfl

theorem step_of_fetch_error {s : State} {r : Refusal} (h : fetch s = .error r) : step s = .refused r := by
  simp [step, h]

theorem fetch_of_feed_short {s : State} {rest : List Request} (h : s.requests = .feed :: rest)
    (hlen : s.stream.length < 188) : fetch s = .error .endOfStream := by
  simp [fetch, h, hlen]

/-- Settles O42: the fetch moves the stream, and no operation does. The fields of the host's side are the model's (log entry 1). -/
theorem framingIsByCountingAlone : Obligations.FramingIsByCountingAlone := by
  intro s rest hreq
  constructor
  · intro hlen t hstep
    obtain ⟨c, s', i, hfetch, _, hexec⟩ := step_next_cases hstep
    rw [fetch_of_feed hreq hlen] at hfetch
    cases hfetch
    have heffect := execEffect_of_exec hexec
    exact ⟨heffect.stream_eq, heffect.streamPos_eq, heffect.requests_eq⟩
  · intro hshort
    exact step_of_fetch_error (fetch_of_feed_short hreq hshort)

/-! ### Short blocks -/

theorem decodeBlock_of_short {block : List Byte} (h : block.length < 188) (op : Block 188 → Instr) :
    decodeBlock block op = .error .truncatedBlock := by
  rw [decodeBlock, (sizedBlock_eq_none_iff 188 block).mpr h]

theorem decodePacket_of_short {block : List Byte} (h : block.length < 188) :
    decodePacket block = .error .truncatedBlock := by
  match block, h with
  | [], _ | [_], _ | [_, _], _ | [_, _, _], _ => rfl
  | b0 :: b1 :: b2 :: b3 :: tail, h =>
    rw [decodePacket, (sizedBlock_eq_none_iff 184 tail).mpr (by simp only [List.length_cons] at h; omega)]

theorem step_of_rejected {s : State} {rest : List Request} {c : Command} {e : DecodeReject}
    (hreq : s.requests = .issue c :: rest) (h : decode c = .error e) : step s = .refused (rejection e) := by
  simp [step, fetch_of_issue hreq, h]

/-- Settles O44: each of the five commands is rejected by the decoder (log entry 9). -/
theorem shortBlocksAreRefused : Obligations.ShortBlocksAreRefused := by
  intro s rest block afc c hlen hc hreq
  refine step_of_rejected (e := .truncatedBlock) hreq ?_
  simp only [List.mem_cons, List.not_mem_nil, or_false] at hc
  rcases hc with rfl | rfl | rfl | rfl | rfl
  · exact decodePacket_of_short hlen
  · exact decodeBlock_of_short hlen .pkt
  · exact decodeBlock_of_short hlen .tshParse
  · exact decodeBlock_of_short hlen (.afParse · afc)
  · exact decodeBlock_of_short hlen .pesAbsorb

/-! ### The read port -/

theorem bufRead_of_read {s : State} {x : Nat} {b : Byte} (hx : x < s.asm.bytesAccumulated)
    (h : Memory.read s.asm.buffer x = some b) : bufRead s x = .ok b := by
  simp [bufRead, hx, h]

theorem bufRead_of_le {s : State} {x : Nat} (hx : s.asm.bytesAccumulated ≤ x) :
    bufRead s x = .error .bufReadBeyondLength := by
  simp [bufRead, Nat.not_lt.mpr hx]

/-- Settles O40: an exact BUF holds a byte at each address below its length (the refusal's name is log entry 10). -/
theorem readPortEndsAtLength : Obligations.ReadPortEndsAtLength := by
  intro s x hexact
  constructor
  · intro hx
    obtain ⟨b, hb⟩ := Option.isSome_iff_exists.mp ((hexact.read_isSome x).mpr hx)
    exact ⟨b, bufRead_of_read hx hb, hb⟩
  · exact bufRead_of_le

end Sys2Proof.Machine
end

section
/-! PROOF. ES.STRIP on BUF, and the chunk it takes from a PES packet that PKT put together (spec 45_host_extraction.md R260 to
R263; 95_test_vectors.md S7). -/

namespace Sys2Proof.Machine

/-! ### The header length -/

/-- The listed stream ids, in numbers (R261). -/
theorem hasLongHeader_iff (id : Byte) :
    hasLongHeader id = true ↔ (0xC0 ≤ id.toNat ∧ id.toNat ≤ 0xDF) ∨ id = 0xBD#8 := by
  simp [hasLongHeader, BitVec.le_def]

section stripLength

variable {m : Memory} {len : Nat} {id dataLength : Byte}

theorem stripLength_of_long (hid : Memory.read m 3 = some id) (hlong : hasLongHeader id = true) (hlen : 9 ≤ len)
    (hdata : Memory.read m 8 = some dataLength) : stripLength m len = some (9 + dataLength.toNat) := by
  simp [stripLength, hid, hlong, hlen, hdata]

theorem stripLength_of_fixed (hid : Memory.read m 3 = some id) (hfixed : ¬ (hasLongHeader id = true ∧ 9 ≤ len)) :
    stripLength m len = some 6 := by
  simp [stripLength, hid, hfixed]

end stripLength

/-! ### The three ends of ES.STRIP -/

section esStrip

variable {s : State} {headerLength : Nat}

theorem exec_esStrip_of_few (h : s.asm.bytesAccumulated < 6) : exec .esStrip s = .next (s.giveBack .noPesHeader) := by
  simp [exec, execEsStrip, h]

theorem exec_esStrip_of_beyond (hlen : 6 ≤ s.asm.bytesAccumulated)
    (hstrip : stripLength s.asm.buffer s.asm.bytesAccumulated = some headerLength)
    (hbeyond : s.asm.bytesAccumulated < headerLength) : exec .esStrip s = .next (s.giveBack .headerBeyondBuffer) := by
  simp [exec, execEsStrip, Nat.not_lt.mpr hlen, hstrip, hbeyond]

theorem exec_esStrip_of_chunk {bytes : List Byte} (hlen : 6 ≤ s.asm.bytesAccumulated)
    (hstrip : stripLength s.asm.buffer s.asm.bytesAccumulated = some headerLength)
    (hfits : headerLength ≤ s.asm.bytesAccumulated)
    (hread : Memory.readBytes s.asm.buffer headerLength (s.asm.bytesAccumulated - headerLength) = some bytes) :
    exec .esStrip s = .next (s.giveChunk bytes) := by
  simp [exec, execEsStrip, Nat.not_lt.mpr hlen, hstrip, Nat.not_lt.mpr hfits, hread]

end esStrip

/-- Settles O39, on the first test of ES.STRIP (what is handed back is log entry 6, that it runs at all log entry 18). -/
theorem esStripNeedsSixBytes : Obligations.EsStripNeedsSixBytes := by
  intro s hfew
  exact exec_esStrip_of_few hfew

/-- Settles O38: the premises are the two cases of `stripLength`, and an exact BUF holds every byte up to its end (log entries 6
and 18). -/
theorem esStripReturnsBytesAfterHeader : Obligations.EsStripReturnsBytesAfterHeader := by
  intro s id headerLength hexact hlen hid hlong hfixed
  have hstrip : stripLength s.asm.buffer s.asm.bytesAccumulated = some headerLength := by
    by_cases hcase : ((0xC0 ≤ id.toNat ∧ id.toNat ≤ 0xDF) ∨ id = 0xBD#8) ∧ 9 ≤ s.asm.bytesAccumulated
    · obtain ⟨hlisted, hnine⟩ := hcase
      obtain ⟨dataLength, hdata, rfl⟩ := hlong hlisted hnine
      exact stripLength_of_long hid ((hasLongHeader_iff id).mpr hlisted) hnine hdata
    · rw [hfixed hcase]
      exact stripLength_of_fixed hid (by rwa [hasLongHeader_iff])
  constructor
  · intro hfits
    obtain ⟨bytes, hread, hcount⟩ :=
      hexact.readBytes (s.asm.bytesAccumulated - headerLength) headerLength (by omega)
    obtain ⟨_, hbytes⟩ := (Memory.readBytes_eq_some_iff ..).mp hread
    exact ⟨bytes, hcount, fun k hk => (hbytes k (hcount ▸ hk)).symm, exec_esStrip_of_chunk hlen hstrip hfits hread⟩
  · intro hbeyond
    exact exec_esStrip_of_beyond hlen hstrip hbeyond

/-! ### A BUF whose bytes are known -/

section holds

variable {a : Asm} {bytes : List Byte}

theorem Asm.holds_of_readBytes {n : Nat} (hlen : a.bytesAccumulated = n)
    (hread : Memory.readBytes a.buffer 0 n = some bytes) : a.Holds bytes := by
  obtain ⟨hcount, hall⟩ := (Memory.readBytes_eq_some_iff ..).mp hread
  exact ⟨hlen.trans hcount.symm, fun x hx => by rw [← hall x (hcount ▸ hx), Nat.zero_add]⟩

theorem Asm.Holds.read_of_getElem? (h : a.Holds bytes) {x : Nat} {b : Byte} (hb : bytes[x]? = some b) :
    Memory.read a.buffer x = some b := by
  obtain ⟨hx, _⟩ := List.getElem?_eq_some_iff.mp hb
  rw [h.2 x hx, hb]

theorem Asm.Holds.readBytes_drop (h : a.Holds bytes) (n : Nat) :
    Memory.readBytes a.buffer n (a.bytesAccumulated - n) = some (bytes.drop n) := by
  obtain ⟨hlen, hread⟩ := h
  rw [hlen]
  exact (Memory.readBytes_eq_some_iff ..).mpr
    ⟨List.length_drop, fun i hi => by rw [hread (n + i) (by omega), List.getElem?_drop]⟩

/-- A whole PES packet of a listed stream id gives its bytes behind the header of `9 + n` (R261, R262). -/
theorem exec_esStrip_of_holds {s : State} {id n : Byte} (h : s.asm.Holds bytes) (hid : bytes[3]? = some id)
    (hlong : hasLongHeader id = true) (hn : bytes[8]? = some n) (hfits : 9 + n.toNat ≤ bytes.length) :
    exec .esStrip s = .next (s.giveChunk (bytes.drop (9 + n.toNat))) := by
  have hfits' : 9 + n.toNat ≤ s.asm.bytesAccumulated := by rwa [h.1]
  exact exec_esStrip_of_chunk (by omega)
    (stripLength_of_long (h.read_of_getElem? hid) hlong (by omega) (h.read_of_getElem? hn)) hfits' (h.readBytes_drop _)

end holds

/-! ### The PES packet that a run leaves -/

theorem getElem?_three_of_parsePesHeader {bs : List Byte} {hd : PesHeader} (h : parsePesHeader bs = some hd) :
    bs[3]? = some hd.streamId := by
  match bs, h with
  | _ :: _ :: _ :: _ :: _ :: _ :: _, h =>
    cases h
    rfl

/-- PKT hands nothing to the host (R254). -/
theorem exec_pkt_chunks {p : Block 188} {s t : State} (h : exec (.pkt p) s = .next t) : t.chunks = s.chunks := by
  obtain ⟨tsh, af, hexec⟩ := exec_pkt_eq_commit p s
  rw [hexec, commit_eq_next_iff] at h
  obtain ⟨a, r, _, rfl⟩ := h
  rfl

theorem packetRun_chunks {ps : List (Block 188)} {s t : State} {rs : List Result}
    (h : packetRun ps s = some (t, rs)) : t.chunks = s.chunks := by
  induction ps generalizing s rs with
  | nil =>
    cases h
    rfl
  | cons p ps ih =>
    cases hexec : exec (.pkt p) s with
    | next s' =>
      rw [packetRun_cons_of_next hexec, Option.map_eq_some_iff] at h
      obtain ⟨⟨t', rs'⟩, hrest, heq⟩ := h
      cases heq
      exact (ih hrest).trans (exec_pkt_chunks hexec)
    | fault f =>
      rw [packetRun_cons_of_fault hexec] at h
      cases h
    | refused r =>
      rw [packetRun, hexec] at h
      cases h

/-- Settles O57: the run of O56 leaves BUF with the PES packet byte for byte, which ES.STRIP then takes from byte `9 + n` on (where
chunks are kept is log entry 6). -/
theorem splitPesPacketIsExtracted : Obligations.SplitPesPacketIsExtracted := by
  intro first rest tsh h n c s hp hu hexp hseq hcont hne hparse hbounded htotal hshort hcap hlisted hn hfits
  obtain ⟨t, hrun, _, hlen, hread⟩ :=
    splitPesPacketIsReassembled first rest tsh h c s hp hu hexp hseq hcont hne hparse hbounded htotal hshort hcap
  have hid : ((first :: rest).flatMap payloadOf)[3]? = some h.streamId := by
    have hsix := six_le_length_of_parsePesHeader hparse
    rw [List.flatMap_cons, List.getElem?_append_left (by omega)]
    exact getElem?_three_of_parsePesHeader hparse
  have hstrip := exec_esStrip_of_holds (Asm.holds_of_readBytes hlen hread) hid ((hasLongHeader_iff _).mpr hlisted) hn
    (by rwa [htotal])
  exact ⟨t, _, _, hrun, hstrip, by rw [State.giveChunk_chunks, packetRun_chunks hrun]⟩

end Sys2Proof.Machine
end

section
/-! PROOF. What makes PKT answer StreamPacketLost and UnexpectedPid, and that nothing else does (spec 60_exceptions.md R279,
R281). -/

namespace Sys2Proof.Machine

section cause

variable {cap : Nat} {p : Block 188} {tsh : Tsh} {adapt : Option Af} {a a' : Asm}

/-- Only a packet that fails step S2 is lost (R279). -/
theorem misses_of_absorb_lost (h : absorb cap p tsh adapt a = .ok (a', .streamPacketLost)) :
    a.Misses tsh.pid tsh.continuityCounter := by
  rcases absorb_ok_cases h with ⟨_, _, hr⟩ | ⟨hmiss, _⟩ | ⟨hexp, _⟩
  · cases hr
  · exact hmiss
  · exact absurd rfl (absorb_of_expects_records hexp h).2

/-- The causes that R281 lists, which are rows T1, T5, T8 and T4 of R205. -/
def CausesUnexpectedPid (p : Block 188) (tsh : Tsh) (a : Asm) : Prop :=
  tsh.pid ≠ a.targetPid ∨
    (a.Expects tsh.pid tsh.continuityCounter ∧
      ((a.started = false ∧ tsh.payloadUnitStart = 0) ∨
        (a.started = true ∧ tsh.payloadUnitStart = 0 ∧ ¬ CarriesPayload tsh) ∨
        (a.started = false ∧ tsh.payloadUnitStart = 1 ∧ 183 ≤ offsetOf p tsh)))

/-- Each of the four causes gives UnexpectedPid, whatever room BUF has. -/
theorem absorb_of_causesUnexpectedPid (h : CausesUnexpectedPid p tsh a) :
    ∃ a', absorb cap p tsh (decodedAf p tsh) a = .ok (a', .unexpectedPid) := by
  rcases h with hforeign | ⟨hexp, ⟨hs, hu⟩ | ⟨_, hu, hp⟩ | ⟨hs, hu, hoff⟩⟩
  · exact ⟨_, absorb_of_foreign hforeign _⟩
  · exact ⟨_, absorb_records_counter hexp hu (.inl hs)⟩
  · exact ⟨_, absorb_records_counter hexp hu (.inr hp)⟩
  · have hidle := absorb_goes_idle (cap := cap) hexp hu hoff
    rw [if_neg (by simp [hs])] at hidle
    exact ⟨_, hidle⟩

/-- No other row of R205 gives UnexpectedPid: a start without its header finishes an assembly that was open. -/
theorem causesUnexpectedPid_of_absorb (h : absorb cap p tsh (decodedAf p tsh) a = .ok (a', .unexpectedPid)) :
    CausesUnexpectedPid p tsh a := by
  rcases absorb_ok_cases h with ⟨hforeign, _⟩ | ⟨_, _, hr⟩ | ⟨hexp, hrow⟩
  · exact .inl hforeign
  · cases hr
  refine .inr ⟨hexp, ?_⟩
  rcases hrow with ⟨_, _, _, _, _, hr⟩ | ⟨hu, hshort, _, hr⟩ | ⟨hu, hnone, _⟩ | ⟨_, _, _, _, _, _, hr⟩ |
    ⟨_, _, _, _, _, _, hr⟩
  · cases hr
  · have hoff : 183 ≤ offsetOf p tsh := by
      rw [payloadOffset_decodedAf, length_packetPayload] at hshort
      omega
    cases hs : a.started with
    | false => exact .inr (.inr ⟨rfl, hu, hoff⟩)
    | true => simp [hs] at hr
  · have hu : tsh.payloadUnitStart = 0#1 := (BitVec.eq_zero_or_eq_one _).resolve_right hu
    cases hs : a.started with
    | false => exact .inl ⟨rfl, hu⟩
    | true =>
      have hp : hasPayload tsh.adaptationFieldControl = false := hnone.resolve_right (by simp [hs])
      exact .inr (.inl ⟨rfl, hu, fun h => by simp [(hasPayload_iff _).mpr h] at hp⟩)
  · cases hr
  · cases hr

/-- Any result of PKT but SyncError is the assembler's, on a valid header (R240, R242). -/
theorem absorb_of_exec_pkt_result {s t : State} {r : Result} (h : exec (.pkt p) s = .next t) (hr : t.result = r)
    (hne : r ≠ .syncError) :
    ∃ tsh, parseTsh p = some tsh ∧ absorb s.cfg.bufCap p tsh (decodedAf p tsh) s.asm = .ok (t.asm, r) := by
  subst hr
  rcases exec_pkt_next_cases h with ⟨_, _, hsync⟩ | habsorb
  · exact absurd hsync hne
  · exact habsorb

end cause

/-- Settles O15: step S2 drops the assembly, and no other step answers StreamPacketLost. -/
theorem counterMismatchDropsAssembly : Obligations.CounterMismatchDropsAssembly := by
  intro p s
  constructor
  · intro tsh hp hmiss
    exact exec_pkt_of_absorb hp (absorb_of_misses hmiss _)
  · intro t hexec hlost
    obtain ⟨tsh, hp, habsorb⟩ := absorb_of_exec_pkt_result hexec hlost nofun
    exact ⟨tsh, hp, misses_of_absorb_lost habsorb⟩

/-- Settles O16: the four causes are the rows of R205 that answer UnexpectedPid. -/
theorem unexpectedPidHasFourCauses : Obligations.UnexpectedPidHasFourCauses := by
  intro p s t hexec
  constructor
  · intro hr
    obtain ⟨tsh, hp, habsorb⟩ := absorb_of_exec_pkt_result hexec hr nofun
    exact ⟨tsh, hp, causesUnexpectedPid_of_absorb habsorb⟩
  · rintro ⟨tsh, hp, hcause⟩
    obtain ⟨a', habsorb⟩ := absorb_of_causesUnexpectedPid (cap := s.cfg.bufCap) hcause
    rw [exec_pkt_of_absorb hp habsorb] at hexec
    cases hexec
    rfl

end Sys2Proof.Machine
end
